-- ==== Sys2Proof/Word.lean ====
section
/-! DEFINITION. The word types of 00_scope.md R10: bytes, 32-bit values, and the 96-bit command word of
30_encoding.md R71. Unbounded naturals of the spec are `Nat`; positions with a bound are `Fin`. -/

namespace Sys2Proof

/-- A byte, 0..255 (00_scope.md R10). -/
abbrev Byte := BitVec 8

/-- `u32` (00_scope.md R10). -/
abbrev Word32 := BitVec 32

/-- The command word `CMD`, 96 bits (30_encoding.md R71, R72). -/
abbrev Cmd := BitVec 96

end Sys2Proof
end

