-- ==== Sys2Proof/Config.lean ====
section
/-! DEFINITION. What is fixed when the block is built: the fixed parameters of 00_scope.md R7, and the open parameters
of R8 and of 42_header_decode.md R134, which "the model takes as arguments" (here: the field `cfg` of State). -/

namespace Sys2Proof

/-- `HDR_LEN`: length in bytes of a tag header and of a frame header (00_scope.md R7). -/
def hdrLen : Nat := 10

/-- `SUPPORTED_VERSION` (00_scope.md R7). -/
def supportedVersion : Byte := 3

/-- `HDR_VERSIONS` (00_scope.md R7). -/
def hdrVersions : List Byte := [2, 3, 4]

/-- `DEFAULT_TEXT_SIZE` (00_scope.md R7). -/
def defaultTextSize : Word32 := 5

/-- A resource bound of 00_scope.md R8: a natural, or `unbounded`. -/
inductive Bound where
  | unbounded
  | atMost (n : Nat)
deriving DecidableEq, Repr

/-- One of the six bits the frame-header rule table leaves free: bits 7, 6, 5 of header position 8 or 9
(42_header_decode.md R134). -/
inductive FlagPos where
  | pos8bit7 | pos8bit6 | pos8bit5
  | pos9bit7 | pos9bit6 | pos9bit5
deriving DecidableEq, Repr

/-- `FRAME_FLAG_MAP` (42_header_decode.md R134): where each of the six frame flags stands. -/
structure FrameFlagMap where
  tap  : FlagPos
  fap  : FlagPos
  ro   : FlagPos
  comp : FlagPos
  encr : FlagPos
  grp  : FlagPos
deriving DecidableEq, Repr

/-- The default `FRAME_FLAG_MAP`, the ID3v2.3 layout (42_header_decode.md R134; 92_eei_decisions.md D6).
PRESUMED by the spec itself ("from general knowledge"); log entry 7. -/
def id3v23FlagMap : FrameFlagMap :=
  { tap := .pos8bit7, fap := .pos8bit6, ro := .pos8bit5,
    comp := .pos9bit7, encr := .pos9bit6, grp := .pos9bit5 }

/-- The open parameters (00_scope.md R8; 93_implementation_defined.md I10, I11). -/
structure Params where
  tagSlots   : Bound
  frameSlots : Bound
  dataBytes  : Bound
  flagMap    : FrameFlagMap
deriving DecidableEq, Repr

/-- The spec's default parameters: every bound `unbounded`, "reproduces the source's behaviour exactly"
(00_scope.md R8), and the ID3v2.3 flag map (log entries 6 and 7). -/
def defaultParams : Params :=
  { tagSlots := .unbounded, frameSlots := .unbounded, dataBytes := .unbounded,
    flagMap := id3v23FlagMap }

end Sys2Proof
end

