-- ==== Sys2Proof/Syntax.lean ====
section
/-! DEFINITION. The commands of 30_encoding.md R75, one constructor per row of spec/opcode_table.json, with the
operands R75 and R72 give each. Record operands (R78) stand beside the command word, in State. -/

namespace Sys2Proof

/-- A frame identifier: four bytes in stream order (10_state.md R27; any four bytes as a command operand,
43_frame.md R155). -/
structure FrameId where
  c0 : Byte
  c1 : Byte
  c2 : Byte
  c3 : Byte
deriving DecidableEq, Repr

/-- The sixteen values of the operation selector (30_encoding.md R75). -/
inductive Op where
  | reserved0 | byteIn | decodeInt | decodeSyncsafe
  | tagHdrCheck | frameHdrCheck | tagHdrDecode | frameHdrDecode
  | defaultFrame | frameLookup | textPayload | readStatus
  | reservedC | reservedD | reservedE | reset
deriving DecidableEq, Repr

/-- A command. A window operand is a byte list; `Instr.wf` asks for its ten bytes (30_encoding.md R72, R74). -/
inductive Instr where
  | reserved0
  | byteIn (b : Byte)
  | decodeInt (b0 b1 b2 b3 : Byte)
  | decodeSyncsafe (b0 b1 b2 b3 : Byte)
  | tagHdrCheck (start : BitVec 4) (window : List Byte)
  | frameHdrCheck (window : List Byte)
  | tagHdrDecode (start : BitVec 4) (window : List Byte)
  | frameHdrDecode (window : List Byte)
  | defaultFrame (id : FrameId)
  | frameLookup (id : FrameId)
  | textPayload
  | readStatus
  | reservedC
  | reservedD
  | reservedE
  | reset
deriving DecidableEq, Repr

/-- The operation a command selects (30_encoding.md R75). -/
def Instr.op : Instr → Op
  | .reserved0 => .reserved0
  | .byteIn _ => .byteIn
  | .decodeInt _ _ _ _ => .decodeInt
  | .decodeSyncsafe _ _ _ _ => .decodeSyncsafe
  | .tagHdrCheck _ _ => .tagHdrCheck
  | .frameHdrCheck _ => .frameHdrCheck
  | .tagHdrDecode _ _ => .tagHdrDecode
  | .frameHdrDecode _ => .frameHdrDecode
  | .defaultFrame _ => .defaultFrame
  | .frameLookup _ => .frameLookup
  | .textPayload => .textPayload
  | .readStatus => .readStatus
  | .reservedC => .reservedC
  | .reservedD => .reservedD
  | .reservedE => .reservedE
  | .reset => .reset

end Sys2Proof
end

