-- ==== Sys2Proof/Machine/State.lean ====
section
/-! DEFINITION. The state of the block, as 10_state.md lists it (R21 to R31), the interfaces of 30_encoding.md
(R70, R77, R78, R80), and the state after RESET (70_reset_and_hazards.md R250, R252). Plain data throughout. -/

namespace Sys2Proof.Machine

/-- A tag header record (10_state.md R26). -/
structure TagHeader where
  version : Byte
  unsync  : Bool
  ext     : Bool
  exp     : Bool
  footer  : Bool
  size    : BitVec 28
deriving DecidableEq, Repr

/-- FrameType (10_state.md R31). -/
inductive FrameType where
  | other
  | text
deriving DecidableEq, Repr

/-- A frame header record (10_state.md R27). -/
structure FrameHeader where
  id   : FrameId
  size : Word32
  tap  : Bool
  fap  : Bool
  ro   : Bool
  comp : Bool
  encr : Bool
  grp  : Bool
  type : FrameType
deriving DecidableEq, Repr

/-- FrameState (10_state.md R28, R31). -/
inductive FrameState where
  | addingData
  | complete
deriving DecidableEq, Repr

/-- The text-encoding selector kept in a frame record (10_state.md R28, R29). -/
inductive TextEnc where
  | none
  | latin1
  | utf16
deriving DecidableEq, Repr

/-- A frame record (10_state.md R28). -/
structure FrameRecord where
  fh    : FrameHeader
  data  : List Byte
  st    : FrameState
  inSrc : Bool
  enc   : TextEnc
deriving DecidableEq, Repr

/-- TagState (10_state.md R31). -/
inductive TagState where
  | creatingFrameHeader
  | addingFrameBytes
  | padding
  | complete
deriving DecidableEq, Repr

/-- A tag context, one open tag candidate (10_state.md R25). The counter is an unbounded natural (00_scope.md R9). -/
structure TagContext where
  hdr    : TagHeader
  st     : TagState
  cnt    : Nat
  pend   : List Byte
  frames : List FrameRecord
deriving DecidableEq, Repr

/-- A tag record, what a TAG_FOUND event carries (44_tag.md R191). -/
structure TagRecord where
  hdr    : TagHeader
  frames : List FrameRecord
deriving DecidableEq, Repr

/-- The error codes of 30_encoding.md R80. -/
inductive ErrCode where
  | frameHeaderInvalid
  | paddingNonzero
  | frameIncompleteAtTagEnd
  | frameAlreadyComplete
  | noFrame
  | tagAlreadyComplete
  | tagVersionUnsupported
  | unsyncUnsupported
  | exthdrUnsupported
  | duplicateFrameId
  | textCompressionUnsupported
  | textEncryptionUnsupported
  | textEncodingUnknown
  | tagHeaderInvalid
  | capacity
deriving DecidableEq, Repr

/-- The `cap` field of an event (30_encoding.md R80): which bound was reached. -/
inductive Cap where
  | none
  | tagSlots
  | frameSlots
  | dataBytes
deriving DecidableEq, Repr

/-- What `raise TagError(code)` carries (00_scope.md R14). -/
structure TagError where
  code : ErrCode
  cap  : Cap
deriving DecidableEq, Repr

/-- An event (30_encoding.md R80). Its numbered fields are in Machine/Codes.lean. -/
inductive Event where
  | tagFound (tag : TagRecord)
  | tagError (err : TagError)
deriving DecidableEq, Repr

/-- The response statuses (30_encoding.md R77). -/
inductive Status where
  | ok
  | addrError
  | notValidHeader
  | illegalOp
  | notText
  | notComplete
deriving DecidableEq, Repr

/-- A response record (30_encoding.md R77). -/
structure Response where
  status : Status
  value  : Word32
  flag   : Bool
  hdr    : Option TagHeader
  fh     : Option FrameHeader
  frame  : Option FrameRecord
  text   : Option (TextEnc × List Byte)
deriving DecidableEq, Repr

/-- The block's state record `s` (10_state.md R21). -/
structure Block where
  /-- `s.rb`: the circular buffer, slots 0..9. -/
  rb       : Vector Byte 10
  /-- `s.rb_wr`: the slot the next byte is written to. -/
  rbWr     : Fin 10
  /-- `s.rb_fill`: the number of bytes held, saturating at 10. -/
  rbFill   : Fin 11
  /-- `s.rb_start`: the slot that holds logical window position 0. -/
  rbStart  : Fin 10
  /-- `s.open`: the open tag candidates, oldest first. -/
  openTags : List TagContext
  /-- `s.events`: the events of the BYTE_IN in progress, in emission order. -/
  events   : List Event
deriving DecidableEq, Repr

/-- What the host presents: a command word with the record operands beside it (30_encoding.md R70, R78), or the
reset input pin (70_reset_and_hazards.md R250). -/
inductive HostInput where
  | command (cmd : Cmd) (tagRec : TagRecord) (frameRec : FrameRecord)
  | resetPin
deriving DecidableEq, Repr

/-- The machine: the build parameters, the block, and its interfaces. -/
structure State where
  /-- The build parameters (00_scope.md R8). Read by steps, written by none. -/
  cfg    : Params
  /-- The block's state (10_state.md R21). -/
  blk    : Block
  /-- The command input: what the host presents, in order (30_encoding.md R70). DESIGN CHOICE, log entry 2. -/
  input  : List HostInput
  /-- The tag record REC beside the running command (30_encoding.md R78). DESIGN CHOICE, log entry 1. -/
  recIn  : TagRecord
  /-- The frame record FREC beside the running command (30_encoding.md R78). DESIGN CHOICE, log entry 1. -/
  frecIn : FrameRecord
  /-- The response output: the response of the last transaction (30_encoding.md R70, R77). -/
  resp   : Response
  /-- The event output: the events of the last transaction (30_encoding.md R70). DEDUCED, log entry 4. -/
  evtOut : List Event
deriving DecidableEq, Repr

/-- A fault stops the machine. The spec gives none: "Every BYTE_IN completes, whatever the byte and the state; the
block as a whole has no stuck or halted state" (60_exceptions.md R225), and every other command answers (R73), so
there is no constructor and nothing raises one. -/
inductive Fault where
deriving DecidableEq, Repr

/-- A refusal is for an instruction the model gives no meaning. -/
inductive Refusal where
  /-- Raised by an arm of `exec` whose instruction has no meaning yet: by none. Safe: a run would stop there. -/
  | notModelled (mnemonic : String)
deriving DecidableEq, Repr

/-- The response of a command that answers OK and nothing else (30_encoding.md R77: "status OK with every other
field zero, false or none"). -/
def Response.okay : Response :=
  { status := .ok, value := 0, flag := false, hdr := none, fh := none, frame := none, text := none }

/-- The block after RESET (70_reset_and_hazards.md R250, R252; 10_state.md R21). -/
def Block.reset : Block :=
  { rb := Vector.replicate 10 0, rbWr := 0, rbFill := 0, rbStart := 0, openTags := [], events := [] }

/-- The record operand port before the host drives it. DESIGN CHOICE, log entry 1. -/
def TagRecord.idle : TagRecord :=
  { hdr := { version := 0, unsync := false, ext := false, exp := false, footer := false, size := 0 },
    frames := [] }

/-- The frame-record operand port before the host drives it. DESIGN CHOICE, log entry 1. -/
def FrameRecord.idle : FrameRecord :=
  { fh := { id := { c0 := 0, c1 := 0, c2 := 0, c3 := 0 }, size := 0, tap := false, fap := false, ro := false,
            comp := false, encr := false, grp := false, type := .other },
    data := [], st := .complete, inSrc := false, enc := .none }

/-- The machine right after RESET (70_reset_and_hazards.md R250, R252), built with the spec's default parameters
(log entry 6), with nothing presented by the host. -/
def State.reset : State :=
  { cfg := defaultParams, blk := Block.reset, input := [], recIn := TagRecord.idle,
    frecIn := FrameRecord.idle, resp := Response.okay, evtOut := [] }

end Sys2Proof.Machine
end

