-- ==== Sys2Proof/Machine/Ops.lean ====
section
/-! DEFINITION. The shared operations of 00_scope.md R13 and R14: ring slots, emitting events, the failure
primitives, the resource bounds, and how a command leaves its response and events on the outputs. What a processor
calls taking an exception is here the catching of a TagError (60_exceptions.md R223): `failureEvent`. There is no
return from it (R225). -/

namespace Sys2Proof.Machine

/-- `MemRead(i, 1) = RB[i]` (00_scope.md R13). -/
def Block.memRead (s : Block) (i : Fin 10) : Byte := s.rb[i]

/-- `MemWrite(i, 1, v) = RB[i] <- v` (00_scope.md R13). -/
def Block.memWrite (s : Block) (i : Fin 10) (v : Byte) : Block := { s with rb := s.rb.set i v }

/-- `emit E`: append event E to the output of the transaction (00_scope.md R14). -/
def Block.emit (s : Block) (e : Event) : Block := { s with events := s.events ++ [e] }

/-- How a header operation fails: `raise AddrError` or `raise HeaderInvalid` (00_scope.md R14). -/
inductive HeaderFailure where
  | addrError
  | headerInvalid
deriving DecidableEq, Repr

/-- The response status of a failed header operation (00_scope.md R14; 30_encoding.md R77). -/
def HeaderFailure.status : HeaderFailure → Status
  | .addrError => .addrError
  | .headerInvalid => .notValidHeader

/-- `TagError(code)`, with no bound named (30_encoding.md R80: `cap` is 0 for every code but 0xF). -/
def tagErr (code : ErrCode) : TagError := { code := code, cap := .none }

/-- `TagError(CAPACITY, cap)` (30_encoding.md R80). -/
def capacityErr (cap : Cap) : TagError := { code := .capacity, cap := cap }

/-- The one event a caught TagError becomes (60_exceptions.md R223: `{TAG_ERROR, code, cap}`). -/
def failureEvent (e : TagError) : Event := .tagError e

/-- "bound != unbounded and used >= bound" (44_tag.md R176; 45_scanner.md R206). -/
def boundFull : Bound → Nat → Bool
  | .unbounded, _ => false
  | .atMost n, used => n ≤ used

/-- "bound != unbounded and total > bound" (44_tag.md R176). -/
def boundExceeded : Bound → Nat → Bool
  | .unbounded, _ => false
  | .atMost n, total => n < total

/-- End of a transaction that writes no block state and emits no event (30_encoding.md R73). -/
def respond (s : State) (r : Response) : State := { s with resp := r, evtOut := [] }

/-- End of a transaction that leaves the block as `b`: its events go to the event output (30_encoding.md R70). -/
def commit (s : State) (b : Block) (r : Response) : State :=
  { s with blk := b, resp := r, evtOut := b.events }

/-- A failed command's response: the status, every other field zero, false or none (30_encoding.md R77). -/
def failed (st : Status) : Response := { Response.okay with status := st }

end Sys2Proof.Machine
end

