-- ==== Sys2Proof/Machine/Operands.lean ====
section
/-! DEFINITION. How an operation reads its operands (30_encoding.md R72; 41_header_validators.md R114): the rotation
offset, the logical order of a rotated window, and the record operands presented beside the command (R78). -/

namespace Sys2Proof.Machine

/-- `start = zext_32(CMD[7:4])`, range 0..15 (30_encoding.md R72). -/
def startOffset (start : BitVec 4) : Nat := start.toNat

/-- `w[i]`, byte i of a list counting from 0 (00_scope.md R12). Every caller has checked that i is below the list's
length; past it the function answers 0 (log entry 13). -/
def byteAt (w : List Byte) (i : Nat) : Byte := w.getD i 0

/-- Logical order: position p is physical position `(p + start) mod 10` (41_header_validators.md R114). -/
def logicalWindow (w : List Byte) (start : Nat) : List Byte :=
  (List.range hdrLen).map fun p => byteAt w ((p + start) % hdrLen)

/-- The record operand REC of FRAME_LOOKUP (30_encoding.md R78). -/
def recOperand (s : State) : TagRecord := s.recIn

/-- The record operand FREC of TEXT_PAYLOAD (30_encoding.md R78). -/
def frecOperand (s : State) : FrameRecord := s.frecIn

end Sys2Proof.Machine
end

