-- ==== Sys2Proof/Machine/Control.lean ====
section
/-! DEFINITION. RESET (70_reset_and_hazards.md R250) and the reserved operations (30_encoding.md R79). -/

namespace Sys2Proof.Machine

/-- A reserved command: no state change, no event, status ILLEGAL_OP (30_encoding.md R79). -/
def illegalOp (s : State) : State := respond s (failed .illegalOp)

/-- op 0x0 (30_encoding.md R79). -/
def execReserved0 (s : State) : Host.Outcome State Fault Refusal := .next (illegalOp s)

/-- op 0xC (30_encoding.md R79). -/
def execReservedC (s : State) : Host.Outcome State Fault Refusal := .next (illegalOp s)

/-- op 0xD (30_encoding.md R79). -/
def execReservedD (s : State) : Host.Outcome State Fault Refusal := .next (illegalOp s)

/-- op 0xE (30_encoding.md R79). -/
def execReservedE (s : State) : Host.Outcome State Fault Refusal := .next (illegalOp s)

/-- The block after `reset(s)`, written as R250 writes it: slots, pointers, open contexts, events. -/
def resetBlock (_ : Block) : Block :=
  { rb := Vector.replicate 10 0x00, rbWr := 0, rbFill := 0, rbStart := 0, openTags := [], events := [] }

/-- RESET (70_reset_and_hazards.md R250, R251). The build parameters and what the host presents are no block state and
stay (log entry 16). -/
def execReset (s : State) : Host.Outcome State Fault Refusal :=
  .next (commit s (resetBlock s.blk) Response.okay)

end Sys2Proof.Machine
end

