-- ==== Sys2Proof/Machine/FieldDecoders.lean ====
section
/-! DEFINITION. The binary field decoder (40_field_decoders.md R100 to R103). -/

namespace Sys2Proof.Machine

/-- `decodeInteger(b) = {b0, b1, b2, b3}`, byte 0 most significant (40_field_decoders.md R100, R101; 90_conflicts.md C1). -/
def decodeInteger (b0 b1 b2 b3 : Byte) : Word32 := b0 ++ b1 ++ b2 ++ b3

/-- The four 7-bit groups `{v[30:24], v[22:16], v[14:8], v[6:0]}` of v = decodeInteger(b), as a u28
(40_field_decoders.md R102). -/
def syncsafeGroups (b0 b1 b2 b3 : Byte) : BitVec 28 :=
  let v := decodeInteger b0 b1 b2 b3
  v.extractLsb' 24 7 ++ v.extractLsb' 16 7 ++ v.extractLsb' 8 7 ++ v.extractLsb' 0 7

/-- `decodeSyncsafe(b) : u32`, bits 31..28 zero (40_field_decoders.md R102). -/
def decodeSyncsafe (b0 b1 b2 b3 : Byte) : Word32 := (syncsafeGroups b0 b1 b2 b3).setWidth 32

/-- One byte of the syncsafe encoding: a 7-bit group under a zero bit 7 (40_field_decoders.md R103). -/
def syncsafeByte (g : BitVec 7) : Byte := 0#1 ++ g

/-- `enc(n) = [n[27:21], n[20:14], n[13:7], n[6:0]]` (40_field_decoders.md R103). -/
def syncsafeEncode (n : BitVec 28) : List Byte :=
  [syncsafeByte (n.extractLsb' 21 7), syncsafeByte (n.extractLsb' 14 7),
   syncsafeByte (n.extractLsb' 7 7), syncsafeByte (n.extractLsb' 0 7)]

/-- A response that carries a value (30_encoding.md R77). -/
def valueResponse (v : Word32) : Response := { Response.okay with value := v }

/-- DECODE_INT (40_field_decoders.md R100). -/
def execDecodeInt (b0 b1 b2 b3 : Byte) (s : State) : Host.Outcome State Fault Refusal :=
  .next (respond s (valueResponse (decodeInteger b0 b1 b2 b3)))

/-- DECODE_SYNCSAFE (40_field_decoders.md R102). -/
def execDecodeSyncsafe (b0 b1 b2 b3 : Byte) (s : State) : Host.Outcome State Fault Refusal :=
  .next (respond s (valueResponse (decodeSyncsafe b0 b1 b2 b3)))

end Sys2Proof.Machine
end

