-- ==== Sys2Proof/Machine/Flags.lean ====
section
/-! DEFINITION. Flag computations. The block has no condition codes (10_state.md R30); its flags are the header bits:
42_header_decode.md R131 (tag header), R134 (frame header, through FRAME_FLAG_MAP), R135 (frame type). -/

namespace Sys2Proof.Machine

/-- `x[i] = 1`, bit 0 the least significant (00_scope.md R11). -/
def bitSet (x : Byte) (i : Nat) : Bool := x.getLsbD i

/-- `unsynchronisationIsSet`: bit 7 of the flag byte (42_header_decode.md R131). -/
def unsyncFlag (x : Byte) : Bool := bitSet x 7

/-- `extendedHeaderIsSet`: bit 6 of the flag byte (42_header_decode.md R131). -/
def extFlag (x : Byte) : Bool := bitSet x 6

/-- `experimentalIndicatorIsSet`: bit 5 of the flag byte (42_header_decode.md R131). -/
def expFlag (x : Byte) : Bool := bitSet x 5

/-- `footerPresentIsSet`: bit 4 of the flag byte (42_header_decode.md R131). -/
def footerFlag (x : Byte) : Bool := bitSet x 4

/-- A frame flag, given where it stands and the bytes at header positions 8 and 9 (42_header_decode.md R134). -/
def frameFlag : FlagPos → Byte → Byte → Bool
  | .pos8bit7, x8, _ => bitSet x8 7
  | .pos8bit6, x8, _ => bitSet x8 6
  | .pos8bit5, x8, _ => bitSet x8 5
  | .pos9bit7, _, x9 => bitSet x9 7
  | .pos9bit6, _, x9 => bitSet x9 6
  | .pos9bit5, _, x9 => bitSet x9 5

/-- Frame typing from byte 0 of the frame id: 0x54 is TEXT, anything else OTHER (42_header_decode.md R135). -/
def frameTypeOf (c0 : Byte) : FrameType := if c0 = 0x54 then .text else .other

end Sys2Proof.Machine
end

