-- ==== Sys2Proof/Machine/Validators.lean ====
section
/-! DEFINITION. The header validators (41_header_validators.md R110 to R118). -/

namespace Sys2Proof.Machine

/-- `OneOf(S)(x)`: x is in S (41_header_validators.md R111). -/
def oneOf (S : List Byte) (x : Byte) : Bool := S.contains x

/-- `BitsZero(I)(x)`: every bit of x named in I is 0 (41_header_validators.md R111). -/
def bitsZero (I : List Nat) (x : Byte) : Bool := I.all fun i => !bitSet x i

/-- `Any(x)`: unconstrained (41_header_validators.md R111). -/
def anyByte (_ : Byte) : Bool := true

/-- `OneOf(ID)`: x is one of 'A'..'Z', '0'..'9' (41_header_validators.md R117; the codes are ASCII). -/
def idChar (x : Byte) : Bool := (0x41#8 ≤ x && x ≤ 0x5A#8) || (0x30#8 ≤ x && x ≤ 0x39#8)

/-- `TAGP[0..9]` (41_header_validators.md R113). -/
def tagPredicates : List (Byte → Bool) :=
  [oneOf [0x49], oneOf [0x44], oneOf [0x33], oneOf hdrVersions, oneOf [0],
   bitsZero [0, 1, 2, 3], bitsZero [7], bitsZero [7], bitsZero [7], bitsZero [7]]

/-- `FRMP[0..9]` (41_header_validators.md R117). -/
def framePredicates : List (Byte → Bool) :=
  [idChar, idChar, idChar, idChar, anyByte, anyByte, anyByte, anyByte,
   bitsZero [0, 1, 2, 3, 4], bitsZero [0, 1, 2, 3, 4]]

/-- Every predicate accepts the byte at its position, in order, stopping at the first that does not
(41_header_validators.md R112 steps 2 and 3). -/
def allAccept : List (Byte → Bool) → List Byte → Bool
  | [], _ => true
  | _ :: _, [] => false
  | p :: ps, x :: xs => p x && allAccept ps xs

/-- `containsHeaderBytes(pred, w)` (41_header_validators.md R112). -/
def containsHeaderBytes (pred : List (Byte → Bool)) (w : List Byte) : Bool :=
  if w.length ≠ hdrLen then false else allAccept pred w

/-- What the tag-header check answers: a verdict, or AddrError (41_header_validators.md R114). -/
inductive CheckResult where
  | addrError
  | verdict (ok : Bool)
deriving DecidableEq, Repr

/-- `tagHeaderCheck(w, start)`: the offset check first, then the length, then the ten predicates in logical order
(41_header_validators.md R114, R116; 92_eei_decisions.md D15). -/
def tagHeaderCheck (w : List Byte) (start : Nat) : CheckResult :=
  if hdrLen ≤ start then .addrError
  else if w.length ≠ hdrLen then .verdict false
  else .verdict (allAccept tagPredicates (logicalWindow w start))

/-- A response that carries a verdict (30_encoding.md R77). -/
def flagResponse (r : Bool) : Response := { Response.okay with flag := r }

/-- The response of TAG_HDR_CHECK (41_header_validators.md R115). -/
def checkResponse : CheckResult → Response
  | .addrError => failed .addrError
  | .verdict r => flagResponse r

/-- TAG_HDR_CHECK (41_header_validators.md R115). -/
def execTagHdrCheck (start : BitVec 4) (w : List Byte) (s : State) : Host.Outcome State Fault Refusal :=
  .next (respond s (checkResponse (tagHeaderCheck w (startOffset start))))

/-- FRAME_HDR_CHECK (41_header_validators.md R118). -/
def execFrameHdrCheck (w : List Byte) (s : State) : Host.Outcome State Fault Refusal :=
  .next (respond s (flagResponse (containsHeaderBytes framePredicates w)))

end Sys2Proof.Machine
end

