-- ==== Sys2Proof/Machine/HeaderDecode.lean ====
section
/-! DEFINITION. Header field extraction (42_header_decode.md R130 to R135). -/

namespace Sys2Proof.Machine

/-- The fields of a tag header, from its ten bytes in logical order (42_header_decode.md R130, R131, R132). -/
def extractTagHeader (l : List Byte) : TagHeader :=
  { version := byteAt l 3,
    unsync := unsyncFlag (byteAt l 5),
    ext := extFlag (byteAt l 5),
    exp := expFlag (byteAt l 5),
    footer := footerFlag (byteAt l 5),
    size := syncsafeGroups (byteAt l 6) (byteAt l 7) (byteAt l 8) (byteAt l 9) }

/-- `tagHeaderDecode(w, start)` (42_header_decode.md R130). -/
def tagHeaderDecode (w : List Byte) (start : Nat) : Except HeaderFailure TagHeader :=
  match tagHeaderCheck w start with
  | .addrError => .error .addrError
  | .verdict false => .error .headerInvalid
  | .verdict true => .ok (extractTagHeader (logicalWindow w start))

/-- The fields of a frame header, from its ten bytes (42_header_decode.md R133, R134, R135). -/
def extractFrameHeader (m : FrameFlagMap) (w : List Byte) : FrameHeader :=
  { id := { c0 := byteAt w 0, c1 := byteAt w 1, c2 := byteAt w 2, c3 := byteAt w 3 },
    size := decodeInteger (byteAt w 4) (byteAt w 5) (byteAt w 6) (byteAt w 7),
    tap := frameFlag m.tap (byteAt w 8) (byteAt w 9),
    fap := frameFlag m.fap (byteAt w 8) (byteAt w 9),
    ro := frameFlag m.ro (byteAt w 8) (byteAt w 9),
    comp := frameFlag m.comp (byteAt w 8) (byteAt w 9),
    encr := frameFlag m.encr (byteAt w 8) (byteAt w 9),
    grp := frameFlag m.grp (byteAt w 8) (byteAt w 9),
    type := frameTypeOf (byteAt w 0) }

/-- `frameHeaderDecode(w)` (42_header_decode.md R133). -/
def frameHeaderDecode (m : FrameFlagMap) (w : List Byte) : Except HeaderFailure FrameHeader :=
  if containsHeaderBytes framePredicates w then .ok (extractFrameHeader m w)
  else .error .headerInvalid

/-- The response of TAG_HDR_DECODE (42_header_decode.md R130). -/
def tagHeaderResponse : Except HeaderFailure TagHeader → Response
  | .ok h => { Response.okay with hdr := some h }
  | .error e => failed e.status

/-- The response of FRAME_HDR_DECODE (42_header_decode.md R133). -/
def frameHeaderResponse : Except HeaderFailure FrameHeader → Response
  | .ok fh => { Response.okay with fh := some fh }
  | .error e => failed e.status

/-- TAG_HDR_DECODE (42_header_decode.md R130). -/
def execTagHdrDecode (start : BitVec 4) (w : List Byte) (s : State) : Host.Outcome State Fault Refusal :=
  .next (respond s (tagHeaderResponse (tagHeaderDecode w (startOffset start))))

/-- FRAME_HDR_DECODE (42_header_decode.md R133). -/
def execFrameHdrDecode (w : List Byte) (s : State) : Host.Outcome State Fault Refusal :=
  .next (respond s (frameHeaderResponse (frameHeaderDecode s.cfg.flagMap w)))

end Sys2Proof.Machine
end

