-- ==== Sys2Proof/Machine/FrameUnit.lean ====
section
/-! DEFINITION. The frame unit (43_frame.md R150 to R160). -/

namespace Sys2Proof.Machine

/-- `frameInit(fh, in_src)` (43_frame.md R150). -/
def frameInit (fh : FrameHeader) (inSrc : Bool) : FrameRecord :=
  { fh := fh, data := [], st := if fh.size = 0 then .complete else .addingData,
    inSrc := inSrc, enc := .none }

/-- `selectEncoding(f, b)` (43_frame.md R152). -/
def selectEncoding (f : FrameRecord) (b : Byte) : Except TagError FrameRecord :=
  if b = 0x00 then .ok { f with enc := .latin1 }
  else if b = 0x01 then .ok { f with enc := .utf16 }
  else .error (tagErr .textEncodingUnknown)

/-- The append, and the selector of a TEXT frame's first byte (43_frame.md R151, R152). -/
def frameAppend (f : FrameRecord) (b : Byte) : Except TagError FrameRecord :=
  let f1 := { f with data := f.data ++ [b] }
  if f1.data.length = 1 ∧ f1.fh.type = .text then selectEncoding f1 b else .ok f1

/-- Completion when the buffer is full (43_frame.md R153). -/
def frameClose (f : FrameRecord) : FrameRecord :=
  if f.data.length = f.fh.size.toNat then { f with st := .complete } else f

/-- `frameAddByte(f, b)` (43_frame.md R151). A raise answers the error alone: the record is discarded with its tag
context (R152, 60_exceptions.md R223; log entry 12). -/
def frameAddByte (f : FrameRecord) (b : Byte) : Except TagError FrameRecord :=
  match f.st with
  | .complete => .error (tagErr .frameAlreadyComplete)
  | .addingData =>
    match frameAppend f b with
    | .error e => .error e
    | .ok f1 => .ok (frameClose f1)

/-- `defaultFrameHeader(id)`; the identifier is not validated (43_frame.md R155). -/
def defaultFrameHeader (id : FrameId) : FrameHeader :=
  { id := id, size := if frameTypeOf id.c0 = .text then defaultTextSize else 0,
    tap := false, fap := false, ro := false, comp := false, encr := false, grp := false,
    type := frameTypeOf id.c0 }

/-- The default TEXT frame's buffer: selector, BOM, null terminator (43_frame.md R157). -/
def defaultTextData : List Byte := [0x01, 0xFF, 0xFE, 0x00, 0x00]

/-- `defaultFrame(id)` (43_frame.md R156). -/
def defaultFrame (id : FrameId) : FrameRecord :=
  match frameTypeOf id.c0 with
  | .text =>
    { fh := defaultFrameHeader id, data := defaultTextData, enc := .utf16, st := .complete, inSrc := false }
  | .other =>
    { fh := defaultFrameHeader id, data := [], enc := .none, st := .complete, inSrc := false }

/-- A response that carries a frame record (30_encoding.md R77). -/
def frameResponse (f : FrameRecord) : Response := { Response.okay with frame := some f }

/-- A response that carries text (30_encoding.md R77). -/
def textResponse (enc : TextEnc) (bytes : List Byte) : Response :=
  { Response.okay with text := some (enc, bytes) }

/-- `textPayload(F)`: the type check before the completeness check; the bytes after the selector
(43_frame.md R158, R160). -/
def textPayload (f : FrameRecord) : Response :=
  match f.fh.type with
  | .other => failed .notText
  | .text =>
    match f.st with
    | .addingData => failed .notComplete
    | .complete =>
      match f.data with
      | [] => textResponse .none []
      | _ :: rest => textResponse f.enc rest

/-- DEFAULT_FRAME (43_frame.md R156). -/
def execDefaultFrame (id : FrameId) (s : State) : Host.Outcome State Fault Refusal :=
  .next (respond s (frameResponse (defaultFrame id)))

/-- TEXT_PAYLOAD, on the frame record presented beside the command (43_frame.md R158; 30_encoding.md R78). -/
def execTextPayload (s : State) : Host.Outcome State Fault Refusal :=
  .next (respond s (textPayload (frecOperand s)))

end Sys2Proof.Machine
end

