-- ==== Sys2Proof/Machine/TagMachine.lean ====
section
/-! DEFINITION. The tag state machine (44_tag.md R170 to R191). -/

namespace Sys2Proof.Machine

/-- `tagInit(h)` (44_tag.md R170). -/
def tagInit (h : TagHeader) : TagContext :=
  { hdr := h, st := .creatingFrameHeader, cnt := 0, pend := [], frames := [] }

/-- The implementation-support check of a new frame header, in the spec's order (44_tag.md R175). -/
def frameSupportCheck (t : TagContext) (fh : FrameHeader) : Option TagError :=
  if t.frames.any fun g => decide (g.fh.id = fh.id) then some (tagErr .duplicateFrameId)
  else if fh.type = .text ∧ fh.comp then some (tagErr .textCompressionUnsupported)
  else if fh.type = .text ∧ fh.encr then some (tagErr .textEncryptionUnsupported)
  else none

/-- The sum of `g.fh.size` over frames (44_tag.md R176). -/
def declaredBytes (fs : List FrameRecord) : Nat := (fs.map fun g => g.fh.size.toNat).sum

/-- The capacity check of a new frame header, bounded builds only (44_tag.md R176). -/
def capacityCheck (P : Params) (t : TagContext) (fh : FrameHeader) : Option TagError :=
  if boundFull P.frameSlots t.frames.length then some (capacityErr .frameSlots)
  else if boundExceeded P.dataBytes (declaredBytes t.frames + fh.size.toNat) then
    some (capacityErr .dataBytes)
  else none

/-- Append the new frame and move on (44_tag.md R177). -/
def appendFrame (t : TagContext) (fh : FrameHeader) : TagContext :=
  { t with frames := t.frames ++ [frameInit fh true], pend := [],
           st := if fh.size = 0 then t.st else .addingFrameBytes }

/-- A complete frame header `w`: validate and build, support check, capacity check, append (44_tag.md R174 to R177,
in that order). -/
def headerComplete (P : Params) (t : TagContext) (w : List Byte) : Except TagError TagContext :=
  match frameHeaderDecode P.flagMap w with
  | .error _ => .error (tagErr .frameHeaderInvalid)
  | .ok fh =>
    match frameSupportCheck t fh with
    | some e => .error e
    | none =>
      match capacityCheck P t fh with
      | some e => .error e
      | none => .ok (appendFrame t fh)

/-- The state action of CREATING_FRAME_HEADER (44_tag.md R172, R173). -/
def creatingAction (P : Params) (t : TagContext) (b : Byte) : Except TagError TagContext :=
  if t.pend.length = 0 ∧ b = 0x00 then .ok { t with st := .padding }
  else
    let t1 := { t with pend := t.pend ++ [b] }
    if t1.pend.length = hdrLen then headerComplete P t1 t1.pend else .ok t1

/-- The state action of ADDING_FRAME_BYTES (44_tag.md R178). -/
def addingAction (t : TagContext) (b : Byte) : Except TagError TagContext :=
  match t.frames.getLast? with
  | none => .error (tagErr .noFrame)
  | some f =>
    match frameAddByte f b with
    | .error e => .error e
    | .ok f1 =>
      .ok { t with frames := t.frames.dropLast ++ [f1],
                   st := if f1.st = .complete then .creatingFrameHeader else t.st }

/-- The state action of PADDING (44_tag.md R179). -/
def paddingAction (t : TagContext) (b : Byte) : Except TagError TagContext :=
  if b = 0x00 then .ok t else .error (tagErr .paddingNonzero)

/-- The state action of the current state (44_tag.md R171 to R180). -/
def stateAction (P : Params) (t : TagContext) (b : Byte) : Except TagError TagContext :=
  match t.st with
  | .creatingFrameHeader => creatingAction P t b
  | .addingFrameBytes => addingAction t b
  | .padding => paddingAction t b
  | .complete => .error (tagErr .tagAlreadyComplete)

/-- "t.frames != [] and last(t.frames).st != COMPLETE" (44_tag.md R181). -/
def lastFrameIncomplete (t : TagContext) : Bool :=
  match t.frames.getLast? with
  | none => false
  | some f => decide (f.st ≠ .complete)

/-- The counter and the forced completion (44_tag.md R181). -/
def countByte (t : TagContext) : Except TagError TagContext :=
  let t1 := { t with cnt := t.cnt + 1 }
  if t1.cnt = t1.hdr.size.toNat then
    if lastFrameIncomplete t1 then .error (tagErr .frameIncompleteAtTagEnd)
    else .ok { t1 with st := .complete }
  else .ok t1

/-- `tagFeed(t, b)` (44_tag.md R182). -/
def tagFeed (P : Params) (t : TagContext) (b : Byte) : Except TagError TagContext :=
  match stateAction P t b with
  | .error e => .error e
  | .ok t1 => countByte t1

/-- The tag record of a context: `{t.hdr, t.frames}` (44_tag.md R191). -/
def TagContext.toRecord (t : TagContext) : TagRecord := { hdr := t.hdr, frames := t.frames }

/-- `getFrame(REC, id)`: linear search in insertion order, else the default frame (44_tag.md R190). -/
def getFrame (r : TagRecord) (id : FrameId) : FrameRecord :=
  match r.frames.find? fun f => decide (f.fh.id = id) with
  | some f => f
  | none => defaultFrame id

/-- FRAME_LOOKUP, on the tag record presented beside the command (44_tag.md R190; 30_encoding.md R78). -/
def execFrameLookup (id : FrameId) (s : State) : Host.Outcome State Fault Refusal :=
  .next (respond s (frameResponse (getFrame (recOperand s) id)))

end Sys2Proof.Machine
end

