-- ==== Sys2Proof/Machine/Scanner.lean ====
section
/-! DEFINITION. The stream scanner (45_scanner.md R201 to R209). -/

namespace Sys2Proof.Machine

/-- Step 1 of BYTE_IN on the open contexts, listed oldest first: each is fed the byte, the newest first; a failure or
a completion removes the context and emits one event, and the rest keep their order (45_scanner.md R201 to R204;
60_exceptions.md R223). -/
def feedOpen (P : Params) (b : Byte) : List TagContext → List TagContext × List Event
  | [] => ([], [])
  | t :: newer =>
    let fed := feedOpen P b newer
    match tagFeed P t b with
    | .error e => (fed.1, fed.2 ++ [failureEvent e])
    | .ok t1 =>
      if t1.st = .complete then (fed.1, fed.2 ++ [.tagFound t1.toRecord])
      else (t1 :: fed.1, fed.2)

/-- Step 1 of BYTE_IN on the block; `s.events` starts empty (45_scanner.md R201). -/
def feedStep (P : Params) (s : Block) (b : Byte) : Block :=
  { s with openTags := (feedOpen P b s.openTags).1, events := (feedOpen P b s.openTags).2 }

/-- One more byte held, at most ten (45_scanner.md R205). -/
def nextFill (n : Fin 11) : Fin 11 := if h : n.val < 10 then ⟨n.val + 1, by omega⟩ else n

/-- `ringInsert(s, b)` (45_scanner.md R205). The slot number wraps modulo 10. -/
def ringInsert (s : Block) (b : Byte) : Block :=
  { s.memWrite s.rbWr b with
    rbWr := s.rbWr + 1
    rbFill := nextFill s.rbFill
    rbStart := if nextFill s.rbFill = 10 then s.rbWr + 1 else 0 }

/-- `tagSupportCheck(h)`, in the spec's order (45_scanner.md R207). -/
def tagSupportCheck (h : TagHeader) : Option ErrCode :=
  if h.version ≠ supportedVersion then some .tagVersionUnsupported
  else if h.unsync then some .unsyncUnsupported
  else if h.ext then some .exthdrUnsupported
  else none

/-- `openTag(s)` (45_scanner.md R206). The two failure arms of the decode are unreachable from a signature match; they
follow the rule's comment: HeaderInvalid emits TAG_HEADER_INVALID, AddrError is never an event (00_scope.md R14;
log entry 11). -/
def openTag (P : Params) (s : Block) : Block :=
  match tagHeaderDecode s.rb.toList s.rbStart.val with
  | .error .addrError => s
  | .error .headerInvalid => s.emit (failureEvent (tagErr .tagHeaderInvalid))
  | .ok h =>
    match tagSupportCheck h with
    | some c => s.emit (failureEvent (tagErr c))
    | none =>
      if boundFull P.tagSlots s.openTags.length then s.emit (failureEvent (capacityErr .tagSlots))
      else { s with openTags := s.openTags ++ [tagInit h] }

/-- Step 2 of BYTE_IN after the insert: check the full window and open on a match (45_scanner.md R201, R206, R208). -/
def scanStep (P : Params) (s : Block) : Block :=
  if s.rbFill = 10 then
    if tagHeaderCheck s.rb.toList s.rbStart.val = .verdict true then openTag P s else s
  else s

/-- `byteIn(s, b)`: feed, then insert, then scan (45_scanner.md R201; 90_conflicts.md C2, C4). -/
def byteIn (P : Params) (s : Block) (b : Byte) : Block := scanStep P (ringInsert (feedStep P s b) b)

/-- The status word: `{min(len(s.open), 2^24 - 1)[23:0], s.rb_start[3:0], s.rb_fill[3:0]}`
(45_scanner.md R209; 10_state.md R32). -/
def statusWord (s : Block) : Word32 :=
  BitVec.ofNat 24 (min s.openTags.length (2 ^ 24 - 1)) ++ BitVec.ofNat 4 s.rbStart.val ++
    BitVec.ofNat 4 s.rbFill.val

/-- BYTE_IN (45_scanner.md R201). -/
def execByteIn (b : Byte) (s : State) : Host.Outcome State Fault Refusal :=
  .next (commit s (byteIn s.cfg s.blk b) Response.okay)

/-- READ_STATUS (45_scanner.md R209). -/
def execReadStatus (s : State) : Host.Outcome State Fault Refusal :=
  .next (respond s (valueResponse (statusWord s.blk)))

end Sys2Proof.Machine
end

