-- ==== Sys2Proof/Machine/Dispatch.lean ====
section
/-! DEFINITION. One arm per command of spec/opcode_table.json. -/

namespace Sys2Proof.Machine

def exec (i : Instr) (s : State) : Host.Outcome State Fault Refusal :=
  match i with
  | .reserved0 => Sys2Proof.Machine.execReserved0 s
  | .byteIn b => Sys2Proof.Machine.execByteIn b s
  | .decodeInt b0 b1 b2 b3 => Sys2Proof.Machine.execDecodeInt b0 b1 b2 b3 s
  | .decodeSyncsafe b0 b1 b2 b3 => Sys2Proof.Machine.execDecodeSyncsafe b0 b1 b2 b3 s
  | .tagHdrCheck start window => Sys2Proof.Machine.execTagHdrCheck start window s
  | .frameHdrCheck window => Sys2Proof.Machine.execFrameHdrCheck window s
  | .tagHdrDecode start window => Sys2Proof.Machine.execTagHdrDecode start window s
  | .frameHdrDecode window => Sys2Proof.Machine.execFrameHdrDecode window s
  | .defaultFrame id => Sys2Proof.Machine.execDefaultFrame id s
  | .frameLookup id => Sys2Proof.Machine.execFrameLookup id s
  | .textPayload => Sys2Proof.Machine.execTextPayload s
  | .readStatus => Sys2Proof.Machine.execReadStatus s
  | .reservedC => Sys2Proof.Machine.execReservedC s
  | .reservedD => Sys2Proof.Machine.execReservedD s
  | .reservedE => Sys2Proof.Machine.execReservedE s
  | .reset => Sys2Proof.Machine.execReset s

end Sys2Proof.Machine
end

