-- ==== Sys2Proof/WellFormed.lean ====
section
/-! DEFINITION. Which commands and which build parameters are well formed. -/

namespace Sys2Proof

/-- A window operand holds exactly ten bytes (30_encoding.md R72, R74). -/
def windowOk (w : List Byte) : Bool := w.length == 10

/-- A command is well formed when its window, if it has one, is ten bytes long. Every other operand is held by
its type: `start` is any u4 (30_encoding.md R72), a byte is any byte. -/
def Instr.wf : Instr → Bool
  | .tagHdrCheck _ w => windowOk w
  | .frameHdrCheck w => windowOk w
  | .tagHdrDecode _ w => windowOk w
  | .frameHdrDecode w => windowOk w
  | .reserved0 => true
  | .byteIn _ => true
  | .decodeInt _ _ _ _ => true
  | .decodeSyncsafe _ _ _ _ => true
  | .defaultFrame _ => true
  | .frameLookup _ => true
  | .textPayload => true
  | .readStatus => true
  | .reservedC => true
  | .reservedD => true
  | .reservedE => true
  | .reset => true

/-- `TAG_SLOTS` and `FRAME_SLOTS` are positive naturals or `unbounded` (00_scope.md R8). -/
def Bound.positive : Bound → Bool
  | .unbounded => true
  | .atMost n => 0 < n

/-- The six frame flags stand in six different bits (42_header_decode.md R134: "room for exactly six"). -/
def FrameFlagMap.wf (m : FrameFlagMap) : Bool :=
  decide [m.tap, m.fap, m.ro, m.comp, m.encr, m.grp].Nodup

/-- Parameters the spec allows (00_scope.md R8; 42_header_decode.md R134). `DATA_BYTES` is any natural. -/
def Params.wf (p : Params) : Bool :=
  p.tagSlots.positive && p.frameSlots.positive && p.flagMap.wf

end Sys2Proof
end

