-- ==== Sys2Proof/Decode.lean ====
section
/-! DEFINITION. From command words to commands and back (30_encoding.md R71, R72, R75, R79, R82). Every value of `op`
is listed, so `decode` is total; what is refused by name is a number that is no 96-bit command word. -/

namespace Sys2Proof

/-- The operation selector value of each operation (30_encoding.md R75). -/
def Op.code : Op → BitVec 4
  | .reserved0 => 0x0#4
  | .byteIn => 0x1#4
  | .decodeInt => 0x2#4
  | .decodeSyncsafe => 0x3#4
  | .tagHdrCheck => 0x4#4
  | .frameHdrCheck => 0x5#4
  | .tagHdrDecode => 0x6#4
  | .frameHdrDecode => 0x7#4
  | .defaultFrame => 0x8#4
  | .frameLookup => 0x9#4
  | .textPayload => 0xA#4
  | .readStatus => 0xB#4
  | .reservedC => 0xC#4
  | .reservedD => 0xD#4
  | .reservedE => 0xE#4
  | .reset => 0xF#4

/-- The operation of each selector value (30_encoding.md R75). A u4 has no value beyond 15, so the last arm is
0xF alone. -/
def Op.ofCode (c : BitVec 4) : Op :=
  match c.toNat with
  | 0 => .reserved0
  | 1 => .byteIn
  | 2 => .decodeInt
  | 3 => .decodeSyncsafe
  | 4 => .tagHdrCheck
  | 5 => .frameHdrCheck
  | 6 => .tagHdrDecode
  | 7 => .frameHdrDecode
  | 8 => .defaultFrame
  | 9 => .frameLookup
  | 10 => .textPayload
  | 11 => .readStatus
  | 12 => .reservedC
  | 13 => .reservedD
  | 14 => .reservedE
  | _ => .reset

/-- `op = CMD[3:0]` (30_encoding.md R72). -/
def Cmd.opField (c : Cmd) : BitVec 4 := c.extractLsb' 0 4

/-- `start = CMD[7:4]` (30_encoding.md R72). -/
def Cmd.startField (c : Cmd) : BitVec 4 := c.extractLsb' 4 4

/-- `rsv = CMD[15:8]`, ignored by every operation (30_encoding.md R72). -/
def Cmd.rsvField (c : Cmd) : Byte := c.extractLsb' 8 8

/-- `B<p> = CMD[8p+23 : 8p+16]` (30_encoding.md R72). -/
def Cmd.byteField (c : Cmd) (p : Nat) : Byte := c.extractLsb' (8 * p + 16) 8

/-- The window operand `[B0, ..., B9]` (30_encoding.md R72). -/
def Cmd.window (c : Cmd) : List Byte :=
  [c.byteField 0, c.byteField 1, c.byteField 2, c.byteField 3, c.byteField 4,
   c.byteField 5, c.byteField 6, c.byteField 7, c.byteField 8, c.byteField 9]

/-- The frame identifier operand `[B0, B1, B2, B3]` (30_encoding.md R72). -/
def Cmd.frameId (c : Cmd) : FrameId :=
  { c0 := c.byteField 0, c1 := c.byteField 1, c2 := c.byteField 2, c3 := c.byteField 3 }

/-- The command a command word stands for (30_encoding.md R72, R75, R79). -/
def decode (c : Cmd) : Instr :=
  match Op.ofCode c.opField with
  | .reserved0 => .reserved0
  | .byteIn => .byteIn (c.byteField 0)
  | .decodeInt => .decodeInt (c.byteField 0) (c.byteField 1) (c.byteField 2) (c.byteField 3)
  | .decodeSyncsafe =>
    .decodeSyncsafe (c.byteField 0) (c.byteField 1) (c.byteField 2) (c.byteField 3)
  | .tagHdrCheck => .tagHdrCheck c.startField c.window
  | .frameHdrCheck => .frameHdrCheck c.window
  | .tagHdrDecode => .tagHdrDecode c.startField c.window
  | .frameHdrDecode => .frameHdrDecode c.window
  | .defaultFrame => .defaultFrame c.frameId
  | .frameLookup => .frameLookup c.frameId
  | .textPayload => .textPayload
  | .readStatus => .readStatus
  | .reservedC => .reservedC
  | .reservedD => .reservedD
  | .reservedE => .reservedE
  | .reset => .reset

/-- Why a number of bits is no command word. -/
inductive DecodeError where
  /-- More than the 96 bits of the one format (30_encoding.md R71). -/
  | longerThanCommandWord (nbits : Nat)
deriving DecidableEq, Repr

/-- The command word whose low `nbits` bits are those of `w`, every bit above them 0. -/
def commandWord (nbits w : Nat) : Cmd := BitVec.ofNat 96 (w % 2 ^ nbits)

/-- Decode `nbits` bits; a number longer than the 96-bit format is refused by name (30_encoding.md R71; log entry 19). -/
def decodeBits (nbits w : Nat) : Except DecodeError Instr :=
  if nbits ≤ 96 then .ok (decode (commandWord nbits w))
  else .error (.longerThanCommandWord nbits)

/-- The decoder's answer for a row of spec/opcode_table.json. -/
def decodeTableWord (nbits w : Nat) : Option Instr :=
  match decodeBits nbits w with
  | .ok i => some i
  | .error _ => none

/-- A command word from its fields (30_encoding.md R72). -/
def packCommand (op start : BitVec 4) (rsv b0 b1 b2 b3 b4 b5 b6 b7 b8 b9 : Byte) : Cmd :=
  b9 ++ b8 ++ b7 ++ b6 ++ b5 ++ b4 ++ b3 ++ b2 ++ b1 ++ b0 ++ rsv ++ start ++ op

/-- The command word of an operation whose operand bytes are `[B0, B1, ...]`; a byte the list does not give, and
`rsv`, is 0 (30_encoding.md R82: "every other bit 0"; log entry 21). -/
def packBytes (op : Op) (start : BitVec 4) (w : List Byte) : Cmd :=
  packCommand op.code start 0 (w.getD 0 0) (w.getD 1 0) (w.getD 2 0) (w.getD 3 0) (w.getD 4 0)
    (w.getD 5 0) (w.getD 6 0) (w.getD 7 0) (w.getD 8 0) (w.getD 9 0)

/-- The four bytes of an identifier, in order. -/
def FrameId.bytes (id : FrameId) : List Byte := [id.c0, id.c1, id.c2, id.c3]

/-- The command word of a well-formed command (30_encoding.md R72, R75, R82). -/
def encode : Instr → Cmd
  | .reserved0 => packBytes .reserved0 0 []
  | .byteIn b => packBytes .byteIn 0 [b]
  | .decodeInt b0 b1 b2 b3 => packBytes .decodeInt 0 [b0, b1, b2, b3]
  | .decodeSyncsafe b0 b1 b2 b3 => packBytes .decodeSyncsafe 0 [b0, b1, b2, b3]
  | .tagHdrCheck start w => packBytes .tagHdrCheck start w
  | .frameHdrCheck w => packBytes .frameHdrCheck 0 w
  | .tagHdrDecode start w => packBytes .tagHdrDecode start w
  | .frameHdrDecode w => packBytes .frameHdrDecode 0 w
  | .defaultFrame id => packBytes .defaultFrame 0 id.bytes
  | .frameLookup id => packBytes .frameLookup 0 id.bytes
  | .textPayload => packBytes .textPayload 0 []
  | .readStatus => packBytes .readStatus 0 []
  | .reservedC => packBytes .reservedC 0 []
  | .reservedD => packBytes .reservedD 0 []
  | .reservedE => packBytes .reservedE 0 []
  | .reset => packBytes .reset 0 []

end Sys2Proof
end

