-- ==== Sys2Proof/Machine/Fetch.lean ====
section
/-! DEFINITION. Taking what the host presents (30_encoding.md R70, R78; 70_reset_and_hazards.md R250; log entries 1, 2,
14). The block fetches no instructions from a memory (20_memory.md R55): the command input is its only source. -/

namespace Sys2Proof.Machine

/-- The record operands of the command being taken stand at the operand ports while it runs; the command leaves the
input. -/
def acceptCommand (s : State) (tagRec : TagRecord) (frameRec : FrameRecord) (rest : List HostInput) : State :=
  { s with input := rest, recIn := tagRec, frecIn := frameRec }

/-- The reset pin is taken; the operand ports are as they were. -/
def acceptResetPin (s : State) (rest : List HostInput) : State := { s with input := rest }

/-- The next thing the host presents, as the command to run and the state it runs in; none when the host presents
nothing. The reset pin "has the same effect" as RESET (70_reset_and_hazards.md R250). -/
def takeInput (s : State) : Option (Instr × State) :=
  match s.input with
  | [] => none
  | .command cmd tagRec frameRec :: rest => some (decode cmd, acceptCommand s tagRec frameRec rest)
  | .resetPin :: rest => some (.reset, acceptResetPin s rest)

/-- With nothing presented the block takes no transaction and nothing changes (45_scanner.md R212; log entry 3). -/
def idle (s : State) : State := s

/-- The host presents a command word, with the record operands as the ports show them, ahead of all else it has to
present. -/
def presentFirst (s : State) (cmd : Cmd) : State :=
  { s with input := .command cmd s.recIn s.frecIn :: s.input }

end Sys2Proof.Machine
end

