-- ==== Sys2Proof/Machine/Step.lean ====
section
/-! DEFINITION. One step is one transaction (20_memory.md R52; 30_encoding.md R70). -/

namespace Sys2Proof.Machine

/-- One transaction: the next command the host presents, run whole; nothing when there is none. -/
def step (s : State) : Host.Outcome State Fault Refusal :=
  match takeInput s with
  | none => .next (idle s)
  | some (i, s1) => exec i s1

/-- The host presents the command word of `nbits` bits `w` (every bit above them 0) as the very next command. -/
def State.withFetchWord (s : State) (nbits w : Nat) : State := presentFirst s (commandWord nbits w)

end Sys2Proof.Machine
end

