-- ==== Sys2Proof/Machine/Codes.lean ====
section
/-! DEFINITION. The numbers the interfaces give names: 10_state.md R29, R31; 30_encoding.md R77, R80. -/

namespace Sys2Proof.Machine

/-- TagState numbering (10_state.md R31). -/
def TagState.number : TagState → BitVec 2
  | .creatingFrameHeader => 0
  | .addingFrameBytes => 1
  | .padding => 2
  | .complete => 3

/-- FrameState numbering (10_state.md R31). -/
def FrameState.number : FrameState → BitVec 1
  | .addingData => 0
  | .complete => 1

/-- FrameType numbering (10_state.md R31). -/
def FrameType.number : FrameType → BitVec 1
  | .other => 0
  | .text => 1

/-- Encoding enum numbering (10_state.md R29). -/
def TextEnc.number : TextEnc → BitVec 2
  | .none => 0
  | .latin1 => 1
  | .utf16 => 2

/-- Response status values (30_encoding.md R77). -/
def Status.number : Status → BitVec 4
  | .ok => 0x0
  | .addrError => 0x1
  | .notValidHeader => 0x2
  | .illegalOp => 0x3
  | .notText => 0x4
  | .notComplete => 0x5

/-- Error codes (30_encoding.md R80). -/
def ErrCode.number : ErrCode → BitVec 4
  | .frameHeaderInvalid => 0x1
  | .paddingNonzero => 0x2
  | .frameIncompleteAtTagEnd => 0x3
  | .frameAlreadyComplete => 0x4
  | .noFrame => 0x5
  | .tagAlreadyComplete => 0x6
  | .tagVersionUnsupported => 0x7
  | .unsyncUnsupported => 0x8
  | .exthdrUnsupported => 0x9
  | .duplicateFrameId => 0xA
  | .textCompressionUnsupported => 0xB
  | .textEncryptionUnsupported => 0xC
  | .textEncodingUnknown => 0xD
  | .tagHeaderInvalid => 0xE
  | .capacity => 0xF

/-- `cap` values (30_encoding.md R80). -/
def Cap.number : Cap → BitVec 2
  | .none => 0
  | .tagSlots => 1
  | .frameSlots => 2
  | .dataBytes => 3

/-- The event record `EVT` as its numbered fields (30_encoding.md R80). -/
structure EventFields where
  kind   : BitVec 2
  code   : BitVec 4
  cap    : BitVec 2
  tagRec : Option TagRecord
deriving DecidableEq, Repr

/-- TAG_FOUND is kind 1 with code and cap 0 and the record; TAG_ERROR is kind 2 with no record (30_encoding.md R80). -/
def Event.fields : Event → EventFields
  | .tagFound r => { kind := 1, code := 0, cap := 0, tagRec := some r }
  | .tagError e => { kind := 2, code := e.code.number, cap := e.cap.number, tagRec := none }

end Sys2Proof.Machine
end

