-- ==== Sys2Proof/Machine/HostSide.lean ====
section
/-! DEFINITION. What the host builds from the block's commands: the FEED pseudo-operation (30_encoding.md R82), the
effect of a byte stream on the block, and the text accessor through the external codec (43_frame.md R159;
44_tag.md R191). No step uses them. -/

namespace Sys2Proof.Machine

/-- A command that takes no record operand, as the host presents it. -/
def plainInput (i : Instr) : HostInput := .command (encode i) TagRecord.idle FrameRecord.idle

/-- `FEED <b0> ... <bn-1>`: the n transactions `BYTE_IN <b0>`, ..., in that order (30_encoding.md R82). -/
def feed (bs : List Byte) : List HostInput := bs.map fun b => plainInput (.byteIn b)

/-- The block after a byte stream (30_encoding.md R82; 45_scanner.md R201). -/
def feedBytes (P : Params) (s : Block) (bs : List Byte) : Block := bs.foldl (byteIn P) s

/-- "its events are the concatenation of theirs" (30_encoding.md R82). -/
def feedEvents (P : Params) : Block → List Byte → List Event
  | _, [] => []
  | s, b :: bs => (byteIn P s b).events ++ feedEvents P (byteIn P s b) bs

/-- One tag context fed a list of bytes (44_tag.md R182), ending at the first raise. -/
def tagFeedAll (P : Params) : TagContext → List Byte → Except TagError TagContext
  | t, [] => .ok t
  | t, b :: bs =>
    match tagFeed P t b with
    | .error e => .error e
    | .ok t1 => tagFeedAll P t1 bs

/-- One frame record given a list of bytes (43_frame.md R151), ending at the first raise. -/
def frameAddBytes : FrameRecord → List Byte → Except TagError FrameRecord
  | f, [] => .ok f
  | f, b :: bs =>
    match frameAddByte f b with
    | .error e => .error e
    | .ok f1 => frameAddBytes f1 bs

/-- `getText()`: the pair TEXT_PAYLOAD hands over, given to the external codec; a failure's response is answered as
it is (43_frame.md R158, R159). The codec is an argument (93_implementation_defined.md I5). -/
def getText {α : Type} (codec : TextEnc → List Byte → α) (f : FrameRecord) : Except Response α :=
  match (textPayload f).text with
  | some (enc, bytes) => .ok (codec enc bytes)
  | none => .error (textPayload f)

/-- A host accessor for the textual identifier `id`: the text of `FRAME_LOOKUP REC, id` (44_tag.md R191). -/
def textAccessor {α : Type} (codec : TextEnc → List Byte → α) (r : TagRecord) (id : FrameId) :
    Except Response α :=
  getText codec (getFrame r id)

end Sys2Proof.Machine
end

