-- ==== Sys2Proof/Safety.lean ====
section
/-! DEFINITION. What a legal state is, in the terms claims use: the invariants the spec states (10_state.md R24, R28;
43_frame.md R154; 44_tag.md R183, R189; 00_scope.md R8; 20_memory.md R62). -/

namespace Sys2Proof.Machine

/-- The invariants of a frame record (43_frame.md R154; 10_state.md R28, R29). -/
structure FrameRecord.Inv (f : FrameRecord) : Prop where
  fits     : f.data.length ≤ f.fh.size.toNat
  complete : f.st = .complete ↔ f.data.length = f.fh.size.toNat
  latin1   : f.enc = .latin1 ↔ f.fh.type = .text ∧ f.data.head? = some 0x00
  utf16    : f.enc = .utf16 ↔ f.fh.type = .text ∧ f.data.head? = some 0x01
  noEnc    : f.enc = .none ↔ ¬ (f.fh.type = .text ∧ f.data ≠ [])

/-- A frame header a tag may hold: identifier bytes in the identifier set (10_state.md R27), typed by its first byte
(42_header_decode.md R135), and no compressed or encrypted TEXT frame (44_tag.md R175). -/
structure FrameHeader.Accepted (fh : FrameHeader) : Prop where
  id0   : idChar fh.id.c0
  id1   : idChar fh.id.c1
  id2   : idChar fh.id.c2
  id3   : idChar fh.id.c3
  typed : fh.type = frameTypeOf fh.id.c0
  plain : fh.type = .text → fh.comp = false ∧ fh.encr = false

/-- A tag header the scanner opens a context for (45_scanner.md R207; 00_scope.md R3). -/
structure TagHeader.Supported (h : TagHeader) : Prop where
  version : h.version = supportedVersion
  unsync  : h.unsync = false
  ext     : h.ext = false

/-- The frames of a tag: each one legal and parsed from the stream, identifiers unique (44_tag.md R189), and within
the build's bounds (44_tag.md R176; 20_memory.md R62). -/
structure FramesInv (P : Params) (fs : List FrameRecord) : Prop where
  inv      : ∀ f ∈ fs, f.Inv
  accepted : ∀ f ∈ fs, f.fh.Accepted
  parsed   : ∀ f ∈ fs, f.inSrc = true
  unique   : (fs.map fun f => f.fh.id).Nodup
  slots    : ∀ n, P.frameSlots = .atMost n → fs.length ≤ n
  bytes    : ∀ n, P.dataBytes = .atMost n → declaredBytes fs ≤ n

/-- The body bytes the frames of a tag account for: ten of header and the payload so far, for each
(10_state.md R25: "frame headers + frame bodies + padding"). -/
def frameBytes (fs : List FrameRecord) : Nat := (fs.map fun f => hdrLen + f.data.length).sum

/-- The invariants of an open tag context between transactions (10_state.md R24, R25; 44_tag.md R177, R178, R183). -/
structure TagContext.Inv (P : Params) (t : TagContext) : Prop where
  hdr      : t.hdr.Supported
  open_    : t.st ≠ .complete
  pend     : t.pend.length < hdrLen
  assembly : t.st ≠ .creatingFrameHeader → t.pend = []
  frames   : FramesInv P t.frames
  idle     : t.st ≠ .addingFrameBytes → ∀ f ∈ t.frames, f.st = .complete
  adding   : t.st = .addingFrameBytes →
    ∃ fs f, t.frames = fs ++ [f] ∧ f.st = .addingData ∧ ∀ g ∈ fs, g.st = .complete
  counted  : t.st ≠ .padding → t.cnt = frameBytes t.frames + t.pend.length
  padded   : frameBytes t.frames + t.pend.length ≤ t.cnt
  below    : t.hdr.size ≠ 0 → t.cnt < t.hdr.size.toNat

/-- The invariants of the circular buffer's registers (10_state.md R24). -/
structure Block.RingInv (s : Block) : Prop where
  start : s.rbStart = if s.rbFill = 10 then s.rbWr else 0
  fill  : s.rbFill.val < 10 → s.rbWr.val = s.rbFill.val

/-- The invariants of the block between transactions (10_state.md R24). -/
structure Block.Inv (P : Params) (s : Block) : Prop where
  ring  : s.RingInv
  tags  : ∀ t ∈ s.openTags, t.Inv P
  slots : ∀ n, P.tagSlots = .atMost n → s.openTags.length ≤ n

/-- A tag record a TAG_FOUND event may carry: every frame COMPLETE (44_tag.md R183, R191), and frames that fit the
declared size (44_tag.md R183). -/
structure TagRecord.Found (P : Params) (r : TagRecord) : Prop where
  hdr      : r.hdr.Supported
  frames   : FramesInv P r.frames
  complete : ∀ f ∈ r.frames, f.st = .complete
  fits     : frameBytes r.frames ≤ r.hdr.size.toNat

/-- An event BYTE_IN may emit: a found tag as above, or an error whose code is none of 0x4, 0x5, 0x6, 0xE
(60_exceptions.md R226), `cap` named exactly for code 0xF (30_encoding.md R80). -/
def Event.Legal (P : Params) : Event → Prop
  | .tagFound r => r.Found P
  | .tagError e =>
    e.code ≠ .frameAlreadyComplete ∧ e.code ≠ .noFrame ∧ e.code ≠ .tagAlreadyComplete ∧
      e.code ≠ .tagHeaderInvalid ∧ (e.cap ≠ .none ↔ e.code = .capacity)

/-- The invariant of a state: the block's, and legal events on the event output. -/
structure State.Inv (s : State) : Prop where
  blk    : s.blk.Inv s.cfg
  events : ∀ e ∈ s.blk.events, e.Legal s.cfg
  out    : ∀ e ∈ s.evtOut, e.Legal s.cfg

/-- The bytes the circular buffer holds, oldest first (45_scanner.md R205; 20_memory.md R51). -/
def Block.held (s : Block) : List Byte :=
  (List.range s.rbFill.val).map fun p => s.rb.toList.getD ((p + s.rbStart.val) % 10) 0

/-- Every command word whose selector is n stands for the command `i` makes of its fields, whatever its other bits
(30_encoding.md R75). -/
def SelectedBy (n : Nat) (i : Cmd → Instr) : Prop := ∀ c : Cmd, c.toNat % 16 = n → decode c = i c

/-- The events of n steps: what each leaves on the event output, one list after another (30_encoding.md R82: "the
concatenation of theirs"), ending at the first that does not answer a next state. -/
def eventsOfSteps : Nat → State → List Event
  | 0, _ => []
  | n + 1, s =>
    match step s with
    | .next s1 => s1.evtOut ++ eventsOfSteps n s1
    | .fault _ => []
    | .refused _ => []

/-- n steps, one after another, ending at the first that does not answer a next state. -/
def steps : Nat → State → Host.Outcome State Fault Refusal
  | 0, s => .next s
  | n + 1, s =>
    match step s with
    | .next s1 => steps n s1
    | .fault r => .fault r
    | .refused r => .refused r

/-- The last n elements of a list. -/
def lastN (n : Nat) (xs : List Byte) : List Byte := xs.drop (xs.length - n)

/-- A tag header in logical order from `start`: the table of 41_header_validators.md R113, byte by byte. -/
def TagHeaderShape (w : List Byte) (start : Nat) : Prop :=
  let l := fun p => byteAt w ((p + start) % 10)
  (l 0).toNat = 0x49 ∧ (l 1).toNat = 0x44 ∧ (l 2).toNat = 0x33 ∧
    ((l 3).toNat = 2 ∨ (l 3).toNat = 3 ∨ (l 3).toNat = 4) ∧ (l 4).toNat = 0 ∧ (l 5).toNat % 16 = 0 ∧
    (l 6).toNat < 128 ∧ (l 7).toNat < 128 ∧ (l 8).toNat < 128 ∧ (l 9).toNat < 128

/-- 'A'..'Z' or '0'..'9' (41_header_validators.md R117). -/
def IdCode (x : Byte) : Prop :=
  (0x41 ≤ x.toNat ∧ x.toNat ≤ 0x5A) ∨ (0x30 ≤ x.toNat ∧ x.toNat ≤ 0x39)

/-- A frame header: the table of 41_header_validators.md R117, byte by byte. -/
def FrameHeaderShape (w : List Byte) : Prop :=
  IdCode (byteAt w 0) ∧ IdCode (byteAt w 1) ∧ IdCode (byteAt w 2) ∧ IdCode (byteAt w 3) ∧
    (byteAt w 8).toNat % 32 = 0 ∧ (byteAt w 9).toNat % 32 = 0

/-- Bit i of a byte, as a number is read (00_scope.md R11). -/
def BitIs (x : Byte) (i : Nat) (v : Bool) : Prop := v = true ↔ x.toNat / 2 ^ i % 2 = 1

/-- The tag header record of ten bytes in logical order from `start` (42_header_decode.md R130, R131). -/
def TagHeaderOf (w : List Byte) (start : Nat) (h : TagHeader) : Prop :=
  let l := fun p => byteAt w ((p + start) % 10)
  h.version = l 3 ∧ BitIs (l 5) 7 h.unsync ∧ BitIs (l 5) 6 h.ext ∧ BitIs (l 5) 5 h.exp ∧
    BitIs (l 5) 4 h.footer ∧
    h.size.toNat = (l 6).toNat % 128 * 2 ^ 21 + (l 7).toNat % 128 * 2 ^ 14 + (l 8).toNat % 128 * 2 ^ 7 +
      (l 9).toNat % 128

/-- The frame header record of ten bytes, but for the six flags (42_header_decode.md R133, R135). -/
def FrameFieldsOf (w : List Byte) (fh : FrameHeader) : Prop :=
  fh.id = { c0 := byteAt w 0, c1 := byteAt w 1, c2 := byteAt w 2, c3 := byteAt w 3 } ∧
    fh.size.toNat = (byteAt w 4).toNat * 2 ^ 24 + (byteAt w 5).toNat * 2 ^ 16 +
      (byteAt w 6).toNat * 2 ^ 8 + (byteAt w 7).toNat ∧
    (fh.type = .text ↔ (byteAt w 0).toNat = 0x54)

/-- The header position of the byte a free bit stands in (42_header_decode.md R134; the six places are log entry 7). -/
def flagByte : FlagPos → Nat
  | .pos8bit7 | .pos8bit6 | .pos8bit5 => 8
  | .pos9bit7 | .pos9bit6 | .pos9bit5 => 9

/-- The number of a free bit in its byte (42_header_decode.md R134; the six places are log entry 7). -/
def flagBit : FlagPos → Nat
  | .pos8bit7 | .pos9bit7 => 7
  | .pos8bit6 | .pos9bit6 => 6
  | .pos8bit5 | .pos9bit5 => 5

/-- The value of the flag that stands at this place of a header. -/
def FlagAt (w : List Byte) (p : FlagPos) (v : Bool) : Prop := BitIs (byteAt w (flagByte p)) (flagBit p) v

/-- The six frame flags, each the bit of byte 8 or 9 that the build's map gives it (42_header_decode.md R134: "parameter
FRAME_FLAG_MAP"; 93_implementation_defined.md I11). -/
def FrameFlagsOf (m : FrameFlagMap) (w : List Byte) (fh : FrameHeader) : Prop :=
  FlagAt w m.tap fh.tap ∧ FlagAt w m.fap fh.fap ∧ FlagAt w m.ro fh.ro ∧
    FlagAt w m.comp fh.comp ∧ FlagAt w m.encr fh.encr ∧ FlagAt w m.grp fh.grp

/-- The six frame flags in the ID3v2.3 layout (42_header_decode.md R134, "from general knowledge"; log entry 7). -/
def Id3v23FlagsOf (w : List Byte) (fh : FrameHeader) : Prop :=
  BitIs (byteAt w 8) 7 fh.tap ∧ BitIs (byteAt w 8) 6 fh.fap ∧ BitIs (byteAt w 8) 5 fh.ro ∧
    BitIs (byteAt w 9) 7 fh.comp ∧ BitIs (byteAt w 9) 6 fh.encr ∧ BitIs (byteAt w 9) 5 fh.grp

/-- What is left of one open context after it is fed a byte: nothing if it failed or completed
(45_scanner.md R203, R204). -/
def survivor (P : Params) (b : Byte) (t : TagContext) : Option TagContext :=
  match tagFeed P t b with
  | .error _ => none
  | .ok t1 => if t1.st = .complete then none else some t1

/-- The event one open context gives when it is fed a byte, if any (45_scanner.md R203, R204). -/
def outcome (P : Params) (b : Byte) (t : TagContext) : Option Event :=
  match tagFeed P t b with
  | .error e => some (.tagError e)
  | .ok t1 => if t1.st = .complete then some (.tagFound { hdr := t1.hdr, frames := t1.frames }) else none

/-- The encoding a complete TEXT payload selects, NONE for an OTHER frame or no payload (43_frame.md R152, R154). -/
def selectedEnc (ty : FrameType) (data : List Byte) : TextEnc :=
  match ty, data with
  | .text, b :: _ => if b = 0x00 then .latin1 else .utf16
  | _, _ => .none

/-- A payload a frame of this type accepts: a TEXT frame's first byte is 0x00 or 0x01 (43_frame.md R152). -/
def PayloadAccepted (ty : FrameType) (data : List Byte) : Prop :=
  ty = .text → ∀ b, data.head? = some b → b = 0x00 ∨ b = 0x01

end Sys2Proof.Machine
end

