-- ==== Sys2Proof/Certificates/Slice0/Obligations.lean ====
section
/-! DEFINITION. The statements for the provers. Each names the rule of spec/ it formalises. An equation
`exec i s = .next { s with ... }` states the result, that the command completes, and its frame at once: every field of
the state that the record does not name is as before. -/

open Sys2Proof Sys2Proof.Machine

/-! ### Encoding and stepping -/

/-- No operand bit of a command is lost between encoding and decoding (30_encoding.md R72, R75), for every well-formed
command. -/
def Obligations.DecodeOfEncodeIsTheCommand : Prop :=
  ∀ i : Instr, i.wf = true → decode (encode i) = i

/-- What decoding reads of a command word: the selector, `start` for the two operations that read it, and the operand
bytes each operation names; `rsv` and every byte an operation does not name are ignored (30_encoding.md R72, R79). -/
def Obligations.DecodeReadsOnlyNamedFields : Prop :=
  ∀ c d : Cmd, (∀ k, k < 4 → c.getLsbD k = d.getLsbD k) →
    ((decode c).op = .tagHdrCheck ∨ (decode c).op = .tagHdrDecode →
      ∀ k, 4 ≤ k → k < 8 → c.getLsbD k = d.getLsbD k) →
    ((decode c).op = .byteIn → ∀ k, 16 ≤ k → k < 24 → c.getLsbD k = d.getLsbD k) →
    ((decode c).op ∈ [Op.decodeInt, .decodeSyncsafe, .defaultFrame, .frameLookup] →
      ∀ k, 16 ≤ k → k < 48 → c.getLsbD k = d.getLsbD k) →
    ((decode c).op ∈ [Op.tagHdrCheck, .frameHdrCheck, .tagHdrDecode, .frameHdrDecode] →
      ∀ k, 16 ≤ k → k < 96 → c.getLsbD k = d.getLsbD k) →
    decode c = decode d

/-- Where the fields of a command word stand (30_encoding.md R72): `op`, `start` and `rsv` are bits 3..0, 7..4 and 15..8,
and operand byte p is bits 8p+23 .. 8p+16. -/
def Obligations.CommandFieldsAreTheirBits : Prop :=
  ∀ c : Cmd, c.opField.toNat = c.toNat % 16 ∧ c.startField.toNat = c.toNat / 16 % 16 ∧
    c.rsvField.toNat = c.toNat / 256 % 256 ∧
    (∀ p, p < 10 → (c.byteField p).toNat = c.toNat / 2 ^ (8 * p + 16) % 256) ∧
    c.window = (List.range 10).map c.byteField ∧
    c.frameId.bytes = (List.range 4).map c.byteField

/-- The opcode map (30_encoding.md R75): the low four bits alone select the operation, for every one of the 16 values and
every word. -/
def Obligations.OpcodeMapSelectsByLowFourBits : Prop :=
  SelectedBy 0x0 (fun _ => .reserved0) ∧ SelectedBy 0x1 (fun c => .byteIn (c.byteField 0)) ∧
  SelectedBy 0x2 (fun c => .decodeInt (c.byteField 0) (c.byteField 1) (c.byteField 2) (c.byteField 3)) ∧
  SelectedBy 0x3 (fun c => .decodeSyncsafe (c.byteField 0) (c.byteField 1) (c.byteField 2) (c.byteField 3)) ∧
  SelectedBy 0x4 (fun c => .tagHdrCheck c.startField c.window) ∧ SelectedBy 0x5 (fun c => .frameHdrCheck c.window) ∧
  SelectedBy 0x6 (fun c => .tagHdrDecode c.startField c.window) ∧ SelectedBy 0x7 (fun c => .frameHdrDecode c.window) ∧
  SelectedBy 0x8 (fun c => .defaultFrame c.frameId) ∧ SelectedBy 0x9 (fun c => .frameLookup c.frameId) ∧
  SelectedBy 0xA (fun _ => .textPayload) ∧ SelectedBy 0xB (fun _ => .readStatus) ∧
  SelectedBy 0xC (fun _ => .reservedC) ∧ SelectedBy 0xD (fun _ => .reservedD) ∧
  SelectedBy 0xE (fun _ => .reservedE) ∧ SelectedBy 0xF (fun _ => .reset)

/-- The opcode map of 30_encoding.md R75, on words written out from R72: the selector, then each operand form. -/
def Obligations.DecodedWordsOfTheOpcodeMap : Prop :=
  decode 0x000000000000000000000000#96 = .reserved0 ∧
  decode 0x000000000000000000490001#96 = .byteIn 0x49 ∧
  decode 0x0000000000007F0100000002#96 = .decodeInt 0x00 0x00 0x01 0x7F ∧
  decode 0x0000000000007F7F03000003#96 = .decodeSyncsafe 0x00 0x03 0x7F 0x7F ∧
  decode 0x043344497F010000F0000064#96 =
    .tagHdrCheck 6 [0x00, 0xF0, 0x00, 0x00, 0x01, 0x7F, 0x49, 0x44, 0x33, 0x04] ∧
  decode 0x000009000000325449540005#96 =
    .frameHdrCheck [0x54, 0x49, 0x54, 0x32, 0x00, 0x00, 0x00, 0x09, 0x00, 0x00] ∧
  decode 0x043344497F010000F00000A6#96 =
    .tagHdrDecode 10 [0x00, 0xF0, 0x00, 0x00, 0x01, 0x7F, 0x49, 0x44, 0x33, 0x04] ∧
  decode 0x000009000000325449540007#96 =
    .frameHdrDecode [0x54, 0x49, 0x54, 0x32, 0x00, 0x00, 0x00, 0x09, 0x00, 0x00] ∧
  decode 0x000000000000325449540008#96 = .defaultFrame ⟨0x54, 0x49, 0x54, 0x32⟩ ∧
  decode 0x000000000000424C41540009#96 = .frameLookup ⟨0x54, 0x41, 0x4C, 0x42⟩ ∧
  decode 0x00000000000000000000000A#96 = .textPayload ∧
  decode 0x00000000000000000000000B#96 = .readStatus ∧
  decode 0x00000000000000000000000C#96 = .reservedC ∧
  decode 0x00000000000000000000000D#96 = .reservedD ∧
  decode 0x00000000000000000000000E#96 = .reservedE ∧
  decode 0x00000000000000000000000F#96 = .reset

/-- A step takes the first command the host presents, with the record operands beside it, and is `exec` of the decoded
command (30_encoding.md R70, R78). The command input as a list is the model's choice (log entries 1, 2). -/
def Obligations.StepRunsTheDecodedCommand : Prop :=
  ∀ (s : State) (cmd : Cmd) (r : TagRecord) (f : FrameRecord) (rest : List HostInput) (i : Instr),
    s.input = .command cmd r f :: rest → decode cmd = i →
    step s = exec i { s with input := rest, recIn := r, frecIn := f }

/-- With nothing presented the block takes no transaction and nothing changes (45_scanner.md R212: the end of the stream
is signalled by ceasing calls; that a step is taken at all is the model's choice, log entry 3). -/
def Obligations.StepWithNothingPresentedChangesNothing : Prop := ∀ s : State, s.input = [] → step s = .next s

/-- Every transaction completes, whatever the command and the state, and no step changes the build parameters
(60_exceptions.md R225; 70_reset_and_hazards.md R253). The clause on the input is the model's choice and no rule's: the
command input is a list of which a step takes the head (log entry 2), a step with an empty list is taken and leaves it
empty (log entry 3), and RESET leaves what is still to come (log entry 16). -/
def Obligations.EveryStepCompletes : Prop :=
  ∀ s : State, ∃ t, step s = .next t ∧ t.cfg = s.cfg ∧ t.input = s.input.tail

/-- FEED runs its bytes as that many BYTE_IN transactions in order: after them the block is as the byte stream leaves
it, and its events are the concatenation of theirs; the word of `BYTE_IN b` is 0x...00bb0001 (30_encoding.md R82). That
FEED stands at the head of an input list, and that the rest of it is still to come after, is the model's choice (log
entry 2), and so are the records that stand beside its commands, which BYTE_IN does not read (log entry 1). -/
def Obligations.FeedRunsItsBytesInOrder : Prop :=
  (∀ b : Byte, (encode (.byteIn b)).toNat = b.toNat * 2 ^ 16 + 1) ∧
  (∀ (s : State) (bs : List Byte) (rest : List HostInput), s.input = feed bs ++ rest →
    eventsOfSteps bs.length s = feedEvents s.cfg s.blk bs ∧
    ∃ t, steps bs.length s = .next t ∧ t.blk = feedBytes s.cfg s.blk bs ∧ t.input = rest ∧ t.cfg = s.cfg)

/-! ### Commands that answer and write nothing -/

/-- DECODE_INT: the value is the big-endian sum (40_field_decoders.md R100). -/
def Obligations.DecodeIntAnswersBigEndianSum : Prop :=
  SelectedBy 0x2 (fun c => .decodeInt (c.byteField 0) (c.byteField 1) (c.byteField 2) (c.byteField 3)) ∧
  ∀ (b0 b1 b2 b3 : Byte) (s : State), ∃ v : Word32,
    v.toNat = b0.toNat * 2 ^ 24 + b1.toNat * 2 ^ 16 + b2.toNat * 2 ^ 8 + b3.toNat ∧
    exec (.decodeInt b0 b1 b2 b3) s =
      .next { s with resp := { Response.okay with value := v }, evtOut := [] }

/-- DECODE_SYNCSAFE: the value is the sum of the four 7-bit groups (40_field_decoders.md R102). -/
def Obligations.DecodeSyncsafeAnswersSumOfGroups : Prop :=
  SelectedBy 0x3 (fun c => .decodeSyncsafe (c.byteField 0) (c.byteField 1) (c.byteField 2) (c.byteField 3)) ∧
  ∀ (b0 b1 b2 b3 : Byte) (s : State), ∃ v : Word32,
    v.toNat = b0.toNat % 128 * 2 ^ 21 + b1.toNat % 128 * 2 ^ 14 + b2.toNat % 128 * 2 ^ 7 + b3.toNat % 128 ∧
    v.toNat < 2 ^ 28 ∧
    exec (.decodeSyncsafe b0 b1 b2 b3) s =
      .next { s with resp := { Response.okay with value := v }, evtOut := [] }

/-- The inverse law of the syncsafe code, both ways (40_field_decoders.md R103): DECODE_SYNCSAFE of the encoding of n
answers n, and the encoding of what four bytes with bit 7 clear decode to is those bytes. -/
def Obligations.SyncsafeCodeIsInvertible : Prop :=
  (∀ n : BitVec 28, ∃ b0 b1 b2 b3 : Byte, syncsafeEncode n = [b0, b1, b2, b3] ∧
    b0.toNat = n.toNat / 2 ^ 21 ∧ b1.toNat = n.toNat / 2 ^ 14 % 128 ∧ b2.toNat = n.toNat / 2 ^ 7 % 128 ∧
    b3.toNat = n.toNat % 128 ∧ (decodeSyncsafe b0 b1 b2 b3).toNat = n.toNat) ∧
  (∀ b0 b1 b2 b3 : Byte, b0.toNat < 128 → b1.toNat < 128 → b2.toNat < 128 → b3.toNat < 128 →
    ∃ n : BitVec 28, n.toNat = (decodeSyncsafe b0 b1 b2 b3).toNat ∧ syncsafeEncode n = [b0, b1, b2, b3])

/-- TAG_HDR_CHECK: ADDR_ERROR from offset 10 on, else a verdict on the rotated window, byte by byte of the rule table
(41_header_validators.md R113, R114, R115). -/
def Obligations.TagHeaderCheckFollowsRuleTable : Prop :=
  SelectedBy 0x4 (fun c => .tagHdrCheck c.startField c.window) ∧
  ∀ (start : BitVec 4) (w : List Byte) (s : State),
    (10 ≤ start.toNat → exec (.tagHdrCheck start w) s =
      .next { s with resp := { Response.okay with status := .addrError }, evtOut := [] }) ∧
    (start.toNat < 10 → ∃ r : Bool, (r = true ↔ w.length = 10 ∧ TagHeaderShape w start.toNat) ∧
      exec (.tagHdrCheck start w) s = .next { s with resp := { Response.okay with flag := r }, evtOut := [] })

/-- FRAME_HDR_CHECK: a verdict on the window, byte by byte of the rule table (41_header_validators.md R112, R117,
R118). -/
def Obligations.FrameHeaderCheckFollowsRuleTable : Prop :=
  SelectedBy 0x5 (fun c => .frameHdrCheck c.window) ∧
  ∀ (w : List Byte) (s : State), ∃ r : Bool, (r = true ↔ w.length = 10 ∧ FrameHeaderShape w) ∧
    exec (.frameHdrCheck w) s = .next { s with resp := { Response.okay with flag := r }, evtOut := [] }

/-- TAG_HDR_DECODE: the three outcomes and the record's fields (42_header_decode.md R130, R131). -/
def Obligations.TagHeaderDecodeExtractsFields : Prop :=
  SelectedBy 0x6 (fun c => .tagHdrDecode c.startField c.window) ∧
  ∀ (start : BitVec 4) (w : List Byte) (s : State),
    (10 ≤ start.toNat → exec (.tagHdrDecode start w) s =
      .next { s with resp := { Response.okay with status := .addrError }, evtOut := [] }) ∧
    (start.toNat < 10 → ¬ (w.length = 10 ∧ TagHeaderShape w start.toNat) → exec (.tagHdrDecode start w) s =
      .next { s with resp := { Response.okay with status := .notValidHeader }, evtOut := [] }) ∧
    (start.toNat < 10 → w.length = 10 → TagHeaderShape w start.toNat → ∃ h, TagHeaderOf w start.toNat h ∧
      exec (.tagHdrDecode start w) s =
        .next { s with resp := { Response.okay with hdr := some h }, evtOut := [] })

/-- FRAME_HDR_DECODE: both outcomes and the record's fields; each of the six flags the bit of byte 8 or 9 that the
build's FRAME_FLAG_MAP gives it, whatever the map, and with the default map the ID3v2.3 layout (42_header_decode.md R133,
R134, R135; 93_implementation_defined.md I11). What a map may be, and that layout, which the spec takes from general
knowledge, are log entry 7. -/
def Obligations.FrameHeaderDecodeExtractsFields : Prop :=
  SelectedBy 0x7 (fun c => .frameHdrDecode c.window) ∧
  ∀ (w : List Byte) (s : State),
    (¬ (w.length = 10 ∧ FrameHeaderShape w) → exec (.frameHdrDecode w) s =
      .next { s with resp := { Response.okay with status := .notValidHeader }, evtOut := [] }) ∧
    (w.length = 10 → FrameHeaderShape w → ∃ fh, FrameFieldsOf w fh ∧ FrameFlagsOf s.cfg.flagMap w fh ∧
      (s.cfg.flagMap = id3v23FlagMap → Id3v23FlagsOf w fh) ∧
      exec (.frameHdrDecode w) s =
        .next { s with resp := { Response.okay with fh := some fh }, evtOut := [] })

/-- The record of a frame header holds each flag where the build's map puts it, and, whatever the map, as long as its
six places are different, it holds every free bit: two valid frame headers that decode to the same record are the same
ten bytes (42_header_decode.md R134: "room for exactly six"). That a legal map has six different places is log entry 7. -/
def Obligations.FrameHeaderRecordDeterminesItsBytes : Prop :=
  ∀ (m : FrameFlagMap) (w : List Byte) (fh : FrameHeader), frameHeaderDecode m w = .ok fh →
    FrameFlagsOf m w fh ∧ (m.wf = true → ∀ v : List Byte, frameHeaderDecode m v = .ok fh → w = v)

/-- DEFAULT_FRAME: the synthesised frame, by the first byte of the identifier (43_frame.md R155, R156, R157). -/
def Obligations.DefaultFrameByFirstByte : Prop :=
  SelectedBy 0x8 (fun c => .defaultFrame c.frameId) ∧
  ∀ (id : FrameId) (s : State),
    (id.c0.toNat = 0x54 → ∃ f : FrameRecord,
      f = { fh := { id := id, size := 5, tap := false, fap := false, ro := false, comp := false, encr := false,
                    grp := false, type := .text },
            data := [0x01, 0xFF, 0xFE, 0x00, 0x00], st := .complete, inSrc := false, enc := .utf16 } ∧
      exec (.defaultFrame id) s =
        .next { s with resp := { Response.okay with frame := some f }, evtOut := [] }) ∧
    (id.c0.toNat ≠ 0x54 → ∃ f : FrameRecord,
      f = { fh := { id := id, size := 0, tap := false, fap := false, ro := false, comp := false, encr := false,
                    grp := false, type := .other },
            data := [], st := .complete, inSrc := false, enc := .none } ∧
      exec (.defaultFrame id) s =
        .next { s with resp := { Response.okay with frame := some f }, evtOut := [] })

/-- FRAME_LOOKUP: the first frame of the presented record with that identifier, else what DEFAULT_FRAME answers
(44_tag.md R190). -/
def Obligations.FrameLookupFindsFirstOrDefault : Prop :=
  SelectedBy 0x9 (fun c => .frameLookup c.frameId) ∧
  ∀ (id : FrameId) (s : State),
    (∀ (before after : List FrameRecord) (f : FrameRecord), s.recIn.frames = before ++ f :: after →
      f.fh.id = id → (∀ g ∈ before, g.fh.id ≠ id) → exec (.frameLookup id) s =
        .next { s with resp := { Response.okay with frame := some f }, evtOut := [] }) ∧
    ((∀ g ∈ s.recIn.frames, g.fh.id ≠ id) → ∃ t, exec (.frameLookup id) s = .next t ∧
      exec (.defaultFrame id) s = .next t)

/-- TEXT_PAYLOAD: the type check, the completeness check, and the bytes after the selector (43_frame.md R158, R160). -/
def Obligations.TextPayloadHandsOverBytesAfterSelector : Prop :=
  SelectedBy 0xA (fun _ => .textPayload) ∧
  ∀ s : State,
    (s.frecIn.fh.type ≠ .text → exec .textPayload s =
      .next { s with resp := { Response.okay with status := .notText }, evtOut := [] }) ∧
    (s.frecIn.fh.type = .text → s.frecIn.st ≠ .complete → exec .textPayload s =
      .next { s with resp := { Response.okay with status := .notComplete }, evtOut := [] }) ∧
    (s.frecIn.fh.type = .text → s.frecIn.st = .complete → s.frecIn.data = [] → exec .textPayload s =
      .next { s with resp := { Response.okay with text := some (.none, []) }, evtOut := [] }) ∧
    (∀ (b : Byte) (bs : List Byte), s.frecIn.fh.type = .text → s.frecIn.st = .complete →
      s.frecIn.data = b :: bs → exec .textPayload s =
        .next { s with resp := { Response.okay with text := some (s.frecIn.enc, bs) }, evtOut := [] })

/-- READ_STATUS: the open count, saturating at 2^24 - 1, the rotation offset and the fill (45_scanner.md R209;
10_state.md R32). -/
def Obligations.ReadStatusPacksFillStartAndOpenCount : Prop :=
  SelectedBy 0xB (fun _ => .readStatus) ∧
  ∀ s : State, ∃ v : Word32,
    v.toNat = min s.blk.openTags.length (2 ^ 24 - 1) * 2 ^ 8 + s.blk.rbStart.val * 2 ^ 4 + s.blk.rbFill.val ∧
    exec .readStatus s = .next { s with resp := { Response.okay with value := v }, evtOut := [] }

/-- The four reserved operations: status ILLEGAL_OP, no state change, no event, whatever the other bits of the word
(30_encoding.md R79). -/
def Obligations.ReservedOperationsAnswerIllegalOp : Prop :=
  (∀ (i : Instr) (s : State), i ∈ [Instr.reserved0, .reservedC, .reservedD, .reservedE] →
    exec i s = .next { s with resp := { Response.okay with status := .illegalOp }, evtOut := [] }) ∧
  (∀ c : Cmd, c.toNat % 16 ∈ [0x0, 0xC, 0xD, 0xE] →
    decode c ∈ [Instr.reserved0, .reservedC, .reservedD, .reservedE])

/-- Only BYTE_IN and RESET change block state: every other command writes nothing, emits no event, and its response is
a function of its operands (and of the build parameters) and, for READ_STATUS, of the block (30_encoding.md R73). -/
def Obligations.OtherCommandsArePureFunctions : Prop :=
  ∀ (i : Instr) (s t : State), i.op ≠ .byteIn → i.op ≠ .reset → s.cfg = t.cfg →
    (i.op = .frameLookup → s.recIn = t.recIn) → (i.op = .textPayload → s.frecIn = t.frecIn) →
    (i.op = .readStatus → s.blk = t.blk) →
    ∃ r : Response, exec i s = .next { s with resp := r, evtOut := [] } ∧
      exec i t = .next { t with resp := r, evtOut := [] }

/-- RESET: every field of the block at its reset value, status OK, no event, in particular none for the contexts it
discards; the reset pin has the same effect (70_reset_and_hazards.md R250). Two clauses are the model's choice and no
rule's: that the pin comes as a host input and answers the response of RESET (log entry 14), and that RESET leaves the
build parameters, the inputs to come and the record ports (log entry 16). The 0x00 of the slots is R250's own write; no other statement
but the one of the reset state speaks of it (93_implementation_defined.md I2; log entry 9). -/
def Obligations.ResetRestoresTheInitialBlock : Prop :=
  SelectedBy 0xF (fun _ => .reset) ∧
  (∀ (s : State) (rest : List HostInput), s.input = .resetPin :: rest →
    step s = exec .reset { s with input := rest }) ∧
  ∀ s : State, ∃ b : Block,
    exec .reset s = .next { s with blk := b, resp := Response.okay, evtOut := [] } ∧
    b.rb.toList = List.replicate 10 0x00 ∧ b.rbWr = 0 ∧ b.rbFill = 0 ∧ b.rbStart = 0 ∧ b.openTags = [] ∧
    b.events = []

/-- The state after reset: the block's reset values and STATUS 0 (10_state.md R35; 70_reset_and_hazards.md R252). -/
def Obligations.StateAfterResetHasTheSpecsValues : Prop :=
  State.reset.blk.rb.toList = List.replicate 10 0x00 ∧ State.reset.blk.rbWr = 0 ∧ State.reset.blk.rbFill = 0 ∧
  State.reset.blk.rbStart = 0 ∧ State.reset.blk.openTags = [] ∧ State.reset.blk.events = [] ∧
  exec .readStatus State.reset =
    .next { State.reset with resp := { Response.okay with value := 0 }, evtOut := [] }

/-- The numbers of the interfaces: statuses (30_encoding.md R77), error codes and `cap` (R80), tag states, frame
states and types (10_state.md R31), encodings (R29); and the event record of R80, field by field: TAG_FOUND is kind 1 with
code 0, cap 0 and its tag record, TAG_ERROR is kind 2 with its code, its cap and no record. -/
def Obligations.InterfaceNumbersAreTheSpecs : Prop :=
  [Status.ok, .addrError, .notValidHeader, .illegalOp, .notText, .notComplete].map (·.number.toNat) =
    [0, 1, 2, 3, 4, 5] ∧
  [ErrCode.frameHeaderInvalid, .paddingNonzero, .frameIncompleteAtTagEnd, .frameAlreadyComplete, .noFrame,
    .tagAlreadyComplete, .tagVersionUnsupported, .unsyncUnsupported, .exthdrUnsupported, .duplicateFrameId,
    .textCompressionUnsupported, .textEncryptionUnsupported, .textEncodingUnknown, .tagHeaderInvalid,
    .capacity].map (·.number.toNat) = [1, 2, 3, 4, 5, 6, 7, 8, 9, 10, 11, 12, 13, 14, 15] ∧
  [Cap.none, .tagSlots, .frameSlots, .dataBytes].map (·.number.toNat) = [0, 1, 2, 3] ∧
  [TagState.creatingFrameHeader, .addingFrameBytes, .padding, .complete].map (·.number.toNat) = [0, 1, 2, 3] ∧
  [FrameState.addingData, .complete].map (·.number.toNat) = [0, 1] ∧
  [FrameType.other, .text].map (·.number.toNat) = [0, 1] ∧
  [TextEnc.none, .latin1, .utf16].map (·.number.toNat) = [0, 1, 2] ∧
  (∀ r : TagRecord, (Event.tagFound r).fields.kind.toNat = 1 ∧ (Event.tagFound r).fields.code.toNat = 0 ∧
    (Event.tagFound r).fields.cap.toNat = 0 ∧ (Event.tagFound r).fields.tagRec = some r) ∧
  (∀ e : TagError, (Event.tagError e).fields.kind.toNat = 2 ∧ (Event.tagError e).fields.code = e.code.number ∧
    (Event.tagError e).fields.cap = e.cap.number ∧ (Event.tagError e).fields.tagRec = none)

/-! ### The frame unit -/

/-- frameAddByte: a complete frame takes no byte; else the byte is appended, the first byte of a TEXT frame selects the
encoding (0x00 LATIN1, 0x01 UTF16, anything else fails), no other byte is interpreted, and the frame closes when it is
full (43_frame.md R151, R152). -/
def Obligations.FrameAddByteAppendsSelectsAndCloses : Prop :=
  ∀ (f : FrameRecord) (b : Byte),
    (f.st = .complete → frameAddByte f b = .error { code := .frameAlreadyComplete, cap := .none }) ∧
    (f.st = .addingData → f.data = [] → f.fh.type = .text →
      (b = 0x00 → ∃ g, frameAddByte f b = .ok g ∧ g.enc = .latin1) ∧
      (b = 0x01 → ∃ g, frameAddByte f b = .ok g ∧ g.enc = .utf16) ∧
      (b ≠ 0x00 → b ≠ 0x01 → frameAddByte f b = .error { code := .textEncodingUnknown, cap := .none })) ∧
    (f.st = .addingData → ¬ (f.data = [] ∧ f.fh.type = .text) → ∃ g, frameAddByte f b = .ok g ∧ g.enc = f.enc) ∧
    (∀ g, frameAddByte f b = .ok g → g.data = f.data ++ [b] ∧ g.fh = f.fh ∧ g.inSrc = f.inSrc ∧
      (g.st = .complete ↔ g.data.length = f.fh.size.toNat))

/-- A frame of size N completes exactly on the N-th byte and rejects any further byte (43_frame.md R153): fed a payload
it accepts, of its declared size, it holds that payload, COMPLETE, and it is not COMPLETE after any shorter part. -/
def Obligations.FrameCompletesExactlyOnItsLastByte : Prop :=
  ∀ (fh : FrameHeader) (inSrc : Bool) (data : List Byte), data.length = fh.size.toNat →
    PayloadAccepted fh.type data →
    frameAddBytes (frameInit fh inSrc) data =
      .ok { fh := fh, data := data, st := .complete, inSrc := inSrc, enc := selectedEnc fh.type data } ∧
    (∀ k, k < data.length → ∃ g, frameAddBytes (frameInit fh inSrc) (data.take k) = .ok g ∧
      g.st = .addingData ∧ g.data = data.take k) ∧
    (∀ b, frameAddBytes (frameInit fh inSrc) (data ++ [b]) =
      .error { code := .frameAlreadyComplete, cap := .none })

/-! ### The tag state machine -/

/-- The state actions that need no frame: padding starts on a 0x00 with nothing pending, any other byte is buffered,
padding must be zero, a complete tag takes no byte (44_tag.md R172, R179, R180; R173 up to the tenth byte). -/
def Obligations.PaddingAndBufferActions : Prop :=
  ∀ (P : Params) (t : TagContext) (b : Byte),
    (t.st = .creatingFrameHeader → t.pend = [] → b = 0x00 →
      stateAction P t b = .ok { t with st := .padding }) ∧
    (t.st = .creatingFrameHeader → ¬ (t.pend = [] ∧ b = 0x00) → t.pend.length ≠ 9 →
      stateAction P t b = .ok { t with pend := t.pend ++ [b] }) ∧
    (t.st = .padding → b = 0x00 → stateAction P t b = .ok t) ∧
    (t.st = .padding → b ≠ 0x00 → stateAction P t b = .error { code := .paddingNonzero, cap := .none }) ∧
    (t.st = .complete → stateAction P t b = .error { code := .tagAlreadyComplete, cap := .none })

/-- The tenth byte of a frame header: validate, support check, capacity, append, in that order (44_tag.md R174, R175,
R176, R177; the order of 60_exceptions.md R227). The flags the support check reads stand where the build's FRAME_FLAG_MAP
puts them (42_header_decode.md R134; 93_implementation_defined.md I11): that clause holds for every map, and what a map
may be is the model's choice (log entry 7). -/
def Obligations.TenthHeaderByteBuildsAFrame : Prop :=
  ∀ (P : Params) (t : TagContext) (b : Byte) (w : List Byte), t.st = .creatingFrameHeader →
    t.pend.length = 9 → w = t.pend ++ [b] →
    (¬ FrameHeaderShape w →
      stateAction P t b = .error { code := .frameHeaderInvalid, cap := .none }) ∧
    (FrameHeaderShape w → ∃ fh, frameHeaderDecode P.flagMap w = .ok fh ∧ FrameFieldsOf w fh ∧
      FrameFlagsOf P.flagMap w fh ∧
      ((∃ g ∈ t.frames, g.fh.id = fh.id) →
        stateAction P t b = .error { code := .duplicateFrameId, cap := .none }) ∧
      ((∀ g ∈ t.frames, g.fh.id ≠ fh.id) →
        (fh.type = .text ∧ fh.comp = true →
          stateAction P t b = .error { code := .textCompressionUnsupported, cap := .none }) ∧
        (fh.type = .text ∧ fh.comp = false ∧ fh.encr = true →
          stateAction P t b = .error { code := .textEncryptionUnsupported, cap := .none }) ∧
        (¬ (fh.type = .text ∧ (fh.comp = true ∨ fh.encr = true)) →
          (∀ n, P.frameSlots = .atMost n → n ≤ t.frames.length →
            stateAction P t b = .error { code := .capacity, cap := .frameSlots }) ∧
          ((∀ n, P.frameSlots = .atMost n → t.frames.length < n) →
            (∀ n, P.dataBytes = .atMost n →
              n < (t.frames.map fun g => g.fh.size.toNat).sum + fh.size.toNat →
              stateAction P t b = .error { code := .capacity, cap := .dataBytes }) ∧
            ((∀ n, P.dataBytes = .atMost n →
                (t.frames.map fun g => g.fh.size.toNat).sum + fh.size.toNat ≤ n) →
              stateAction P t b = .ok { t with
                frames := t.frames ++ [{ fh := fh, data := [],
                                         st := if fh.size.toNat = 0 then .complete else .addingData,
                                         inSrc := true, enc := .none }],
                pend := [],
                st := if 0 < fh.size.toNat then .addingFrameBytes else .creatingFrameHeader })))))

/-- A frame byte goes to the last frame; when that frame completes, the next byte starts a frame header again; with no
frame it fails (44_tag.md R178). -/
def Obligations.FrameByteGoesToTheLastFrame : Prop :=
  ∀ (P : Params) (t : TagContext) (b : Byte), t.st = .addingFrameBytes →
    (t.frames = [] → stateAction P t b = .error { code := .noFrame, cap := .none }) ∧
    (∀ (fs : List FrameRecord) (f : FrameRecord), t.frames = fs ++ [f] →
      (∀ e, frameAddByte f b = .error e → stateAction P t b = .error e) ∧
      (∀ g, frameAddByte f b = .ok g → stateAction P t b = .ok { t with
        frames := fs ++ [g],
        st := if g.st = .complete then .creatingFrameHeader else .addingFrameBytes }))

/-- The counter and the forced completion, after a state action that did not raise; one that raised is not counted
(44_tag.md R181). -/
def Obligations.CounterForcesCompletion : Prop :=
  ∀ (P : Params) (t : TagContext) (b : Byte),
    (∀ e, stateAction P t b = .error e → tagFeed P t b = .error e) ∧
    (∀ u, stateAction P t b = .ok u →
      (u.cnt + 1 ≠ u.hdr.size.toNat → tagFeed P t b = .ok { u with cnt := u.cnt + 1 }) ∧
      (u.cnt + 1 = u.hdr.size.toNat →
        (∀ fs f, u.frames = fs ++ [f] → f.st ≠ .complete →
          tagFeed P t b = .error { code := .frameIncompleteAtTagEnd, cap := .none }) ∧
        ((u.frames = [] ∨ ∃ fs f, u.frames = fs ++ [f] ∧ f.st = .complete) →
          tagFeed P t b = .ok { u with cnt := u.cnt + 1, st := .complete })))

/-- A tag of size 0 never completes, whatever it is fed, and every byte it takes is counted; on zero bytes it stays in
PADDING for ever (44_tag.md R184). -/
def Obligations.SizeZeroTagNeverCompletes : Prop :=
  (∀ (P : Params) (t u : TagContext) (bs : List Byte), t.hdr.size = 0 → t.st ≠ .complete →
    tagFeedAll P t bs = .ok u → u.st ≠ .complete ∧ u.cnt = t.cnt + bs.length) ∧
  (∀ (P : Params) (h : TagHeader) (n : Nat), h.size = 0 → tagFeedAll P (tagInit h) (List.replicate (n + 1) 0x00) =
    .ok { hdr := h, st := .padding, cnt := n + 1, pend := [], frames := [] })

/-- A tag whose body is all padding becomes COMPLETE with no frames, exactly on the byte that makes the count its
size (44_tag.md R181, R183, R186). -/
def Obligations.AllPaddingTagCompletesOnItsLastByte : Prop :=
  ∀ (P : Params) (h : TagHeader), 0 < h.size.toNat →
    tagFeedAll P (tagInit h) (List.replicate h.size.toNat 0x00) =
      .ok { hdr := h, st := .complete, cnt := h.size.toNat, pend := [], frames := [] } ∧
    (∀ k, k < h.size.toNat → ∃ u, tagFeedAll P (tagInit h) (List.replicate k 0x00) = .ok u ∧
      u.st ≠ .complete ∧ u.cnt = k)

/-- Completion with a partial frame header: the pending bytes appear in no frame of the completed tag
(44_tag.md R185). -/
def Obligations.PartialHeaderIsDroppedAtCompletion : Prop :=
  ∀ (P : Params) (t : TagContext) (b : Byte), t.st = .creatingFrameHeader → t.pend.length < 9 →
    ¬ (t.pend = [] ∧ b = 0x00) → (∀ f ∈ t.frames, f.st = .complete) → t.cnt + 1 = t.hdr.size.toNat →
    ∃ u, tagFeed P t b = .ok u ∧ u.st = .complete ∧ u.frames = t.frames ∧ u.hdr = t.hdr

/-- One frame filling its tag: the ten bytes of a legal frame header, any of its six flags set, then a payload of the
declared length, give a COMPLETE tag whose one frame has that header and holds that payload, its encoding selected by its
first byte (44_tag.md R173 to R183; 43_frame.md R151 to R153; the flags as in TenthHeaderByteBuildsAFrame). For every
payload the frame's type accepts and every build whose bounds admit it; a TEXT frame that is compressed or encrypted is
refused instead (TenthHeaderByteBuildsAFrame). -/
def Obligations.OneFrameTagDeliversItsPayload : Prop :=
  ∀ (P : Params) (h : TagHeader) (w : List Byte), w.length = 10 → FrameHeaderShape w →
    ∃ fh : FrameHeader, FrameFieldsOf w fh ∧ FrameFlagsOf P.flagMap w fh ∧
      (¬ (fh.type = .text ∧ (fh.comp = true ∨ fh.encr = true)) → ∀ data : List Byte,
        data.length = fh.size.toNat → h.size.toNat = 10 + data.length → PayloadAccepted fh.type data →
        (∀ n, P.frameSlots = .atMost n → 1 ≤ n) → (∀ n, P.dataBytes = .atMost n → data.length ≤ n) →
        tagFeedAll P (tagInit h) (w ++ data) =
          .ok { hdr := h, st := .complete, cnt := h.size.toNat, pend := [],
                frames := [{ fh := fh, data := data, st := .complete, inSrc := true,
                             enc := selectedEnc fh.type data }] })

/-! ### The circular buffer -/

/-- `MemRead` after `MemWrite`: the written slot gives the value, every other slot and the rest of the block are as
before (00_scope.md R13). -/
def Obligations.RingSlotReadAfterWrite : Prop :=
  ∀ (s : Block) (i j : Fin 10) (v : Byte), (s.memWrite i v).memRead i = v ∧
    (j ≠ i → (s.memWrite i v).memRead j = s.memRead j) ∧ (s.memWrite i v).openTags = s.openTags ∧
    (s.memWrite i v).events = s.events ∧ (s.memWrite i v).rbWr = s.rbWr ∧
    (s.memWrite i v).rbFill = s.rbFill ∧ (s.memWrite i v).rbStart = s.rbStart

/-- What BYTE_IN does to the circular buffer, slot by slot, and the whole frame of the command (45_scanner.md R201,
R205): one slot written, the registers advanced; the outputs; nothing else of the state but the open contexts and
the events. -/
def Obligations.ByteInInsertsIntoTheRing : Prop :=
  ∀ (b : Byte) (s : State), ∃ k : Block,
    exec (.byteIn b) s = .next { s with blk := k, resp := Response.okay, evtOut := k.events } ∧
    k.memRead s.blk.rbWr = b ∧ (∀ j, j ≠ s.blk.rbWr → k.memRead j = s.blk.memRead j) ∧
    k.rbWr.val = (s.blk.rbWr.val + 1) % 10 ∧ k.rbFill.val = min 10 (s.blk.rbFill.val + 1) ∧
    k.rbStart.val = if k.rbFill.val = 10 then k.rbWr.val else 0

/-- Stream order: fed any bytes, the buffer holds the last ten of what it held and what it was fed, oldest first, and
its registers keep their relation (45_scanner.md R205; 20_memory.md R51; 10_state.md R24). -/
def Obligations.RingHoldsTheLastTenBytes : Prop :=
  ∀ (P : Params) (s : Block) (bs : List Byte), s.RingInv →
    (feedBytes P s bs).RingInv ∧ (feedBytes P s bs).held = lastN 10 (s.held ++ bs)

/-- What a slot holds that no byte has been written to since reset can never affect any output: two blocks that agree but
for such slots give the same events, keep the same contexts open and read the same status, whatever they are fed
(10_state.md R23; so the value of log entry 9 is unobservable). -/
def Obligations.UnwrittenSlotsAreUnobservable : Prop :=
  ∀ (P : Params) (s u : Block) (bs : List Byte), s.RingInv → u.RingInv → s.rbFill = u.rbFill → s.rbWr = u.rbWr →
    s.openTags = u.openTags → (∀ i : Fin 10, i.val < s.rbFill.val → s.memRead i = u.memRead i) →
    feedEvents P s bs = feedEvents P u bs ∧ (feedBytes P s bs).openTags = (feedBytes P u bs).openTags ∧
      statusWord (feedBytes P s bs) = statusWord (feedBytes P u bs)

/-! ### BYTE_IN: feeding and scanning -/

/-- Step 1 and step 2 of BYTE_IN: every context open at the start is fed the byte once; those left keep their order;
the events come newest context first and precede the event of the scan; the scan opens one context, or emits one
event, or neither (45_scanner.md R202, R203, R204). The last two clauses, at most one context or event of the scan and at
most one event more than contexts were open, are R213's, which the spec marks as its own inference from R201 to R206. -/
def Obligations.ByteInFeedsNewestFirstThenScans : Prop :=
  ∀ (b : Byte) (s : State), ∃ (t : State) (opened : List TagContext) (scanEvents : List Event),
    exec (.byteIn b) s = .next t ∧
    t.blk.openTags = s.blk.openTags.filterMap (survivor s.cfg b) ++ opened ∧
    t.evtOut = s.blk.openTags.reverse.filterMap (outcome s.cfg b) ++ scanEvents ∧
    t.blk.events = t.evtOut ∧ opened.length + scanEvents.length ≤ 1 ∧
    t.evtOut.length ≤ s.blk.openTags.length + 1

/-- Step 2 of BYTE_IN, decided by the last ten bytes alone (45_scanner.md R206, R207): nothing before ten bytes are held
or on a window that is no header; else a rejection in the order version, unsynchronisation, extended header, slots; else
one new context, not yet fed. The first of these clauses is R208's and 70_reset_and_hazards.md R255's, and that the window
is the last ten bytes follows R205; the spec marks these as its own inferences (the decoded header's clauses are R206's
and R207's own). -/
def Obligations.HeaderScanOpensOrRejects : Prop :=
  ∀ (b : Byte) (s : State) (w : List Byte), s.blk.RingInv → w = lastN 10 (s.blk.held ++ [b]) →
    ∃ t kept evs, exec (.byteIn b) s = .next t ∧
      kept = s.blk.openTags.filterMap (survivor s.cfg b) ∧
      evs = s.blk.openTags.reverse.filterMap (outcome s.cfg b) ∧
      (¬ (w.length = 10 ∧ TagHeaderShape w 0) → t.blk.openTags = kept ∧ t.evtOut = evs) ∧
      (w.length = 10 → TagHeaderShape w 0 → ∃ h, TagHeaderOf w 0 h ∧
        (h.version.toNat ≠ 3 → t.blk.openTags = kept ∧
          t.evtOut = evs ++ [.tagError { code := .tagVersionUnsupported, cap := .none }]) ∧
        (h.version.toNat = 3 → h.unsync = true → t.blk.openTags = kept ∧
          t.evtOut = evs ++ [.tagError { code := .unsyncUnsupported, cap := .none }]) ∧
        (h.version.toNat = 3 → h.unsync = false → h.ext = true → t.blk.openTags = kept ∧
          t.evtOut = evs ++ [.tagError { code := .exthdrUnsupported, cap := .none }]) ∧
        (h.version.toNat = 3 → h.unsync = false → h.ext = false →
          (∀ n, s.cfg.tagSlots = .atMost n → n ≤ kept.length → t.blk.openTags = kept ∧
            t.evtOut = evs ++ [.tagError { code := .capacity, cap := .tagSlots }]) ∧
          ((∀ n, s.cfg.tagSlots = .atMost n → kept.length < n) → t.evtOut = evs ∧
            t.blk.openTags = kept ++
              [{ hdr := h, st := .creatingFrameHeader, cnt := 0, pend := [], frames := [] }])))

/-- Ten bytes of a supported header, fed to a block that holds no byte and has nothing open, open exactly one context
and emit nothing, whatever the build's parameters (45_scanner.md R201, R206, R211; 44_tag.md R170). -/
def Obligations.SupportedHeaderOpensOneContext : Prop :=
  ∀ (P : Params) (s : Block) (w : List Byte), P.wf = true → s.RingInv → s.rbFill = 0 → s.openTags = [] →
    w.length = 10 → TagHeaderShape w 0 → (byteAt w 3).toNat = 3 → (byteAt w 5).toNat < 64 →
    ∃ h, TagHeaderOf w 0 h ∧ feedEvents P s w = [] ∧
      (feedBytes P s w).openTags =
        [{ hdr := h, st := .creatingFrameHeader, cnt := 0, pend := [], frames := [] }]

/-- Errors are precise per context (60_exceptions.md R223; 10_state.md R34): where a context fails on a byte, the
transaction leaves the block as it would be had that context never been open, and its events are the same but for the
one TAG_ERROR, which stands where the context's turn was. -/
def Obligations.FailedContextLeavesNoTrace : Prop :=
  ∀ (P : Params) (s : Block) (b : Byte) (older newer : List TagContext) (t : TagContext) (e : TagError),
    P.tagSlots = .unbounded → s.openTags = older ++ t :: newer → tagFeed P t b = .error e →
    ∃ rest : List Event,
      (byteIn P s b).events = newer.reverse.filterMap (outcome P b) ++ .tagError e :: rest ∧
      byteIn P { s with openTags := older ++ newer } b =
        { byteIn P s b with events := newer.reverse.filterMap (outcome P b) ++ rest }

/-! ### Invariants -/

/-- The invariant holds after reset (10_state.md R24, R35). -/
def Obligations.InvariantHoldsAfterReset : Prop := State.reset.Inv

/-- Every step keeps the invariant: the buffer registers' relation, at most TAG_SLOTS contexts, none COMPLETE, each
with its counter accounting for every body byte and below its size, its frames legal, unique and within bounds
(10_state.md R24; 43_frame.md R154; 44_tag.md R183, R189). -/
def Obligations.EveryStepKeepsTheInvariant : Prop :=
  ∀ s t : State, s.Inv → step s = .next t → t.Inv

/-- From a block that meets the invariant, BYTE_IN emits none of the codes 0x4, 0x5, 0x6, 0xE (60_exceptions.md R226), and
each of its events is one of the two kinds of 30_encoding.md R80: kind 1 with code 0, cap 0 and a record, or kind 2 with a
code that is not 0, no record, and a cap exactly for code 0xF. -/
def Obligations.UnreachableCodesAreNeverEmitted : Prop :=
  ∀ (b : Byte) (s : State), s.blk.Inv s.cfg → ∃ t, exec (.byteIn b) s = .next t ∧
    ∀ e ∈ t.evtOut, e.fields.code.toNat ∉ [0x4, 0x5, 0x6, 0xE] ∧
      ((e.fields.kind.toNat = 1 ∧ e.fields.code.toNat = 0 ∧ e.fields.cap.toNat = 0 ∧
          ∃ r, e.fields.tagRec = some r) ∨
        (e.fields.kind.toNat = 2 ∧ e.fields.code.toNat ≠ 0 ∧ e.fields.tagRec = none ∧
          (e.fields.cap.toNat ≠ 0 ↔ e.fields.code.toNat = 0xF)))

/-- From a block that meets the invariant, every TAG_FOUND that BYTE_IN emits carries a supported header and frames
that are all COMPLETE, with unique identifiers, whose headers and payloads together fit the declared size
(44_tag.md R183, R189, R191). -/
def Obligations.FoundTagsAreWholeAndFit : Prop :=
  ∀ (b : Byte) (s : State), s.blk.Inv s.cfg → ∃ t, exec (.byteIn b) s = .next t ∧
    ∀ r, .tagFound r ∈ t.evtOut →
      r.hdr.version.toNat = 3 ∧ r.hdr.unsync = false ∧ r.hdr.ext = false ∧
      (∀ f ∈ r.frames, f.st = .complete ∧ f.data.length = f.fh.size.toNat ∧ f.inSrc = true ∧
        f.enc = selectedEnc f.fh.type f.data) ∧
      (r.frames.map fun f => f.fh.id).Nodup ∧
      (r.frames.map fun f => 10 + f.data.length).sum ≤ r.hdr.size.toNat
end

