-- ==== Sys2Proof/Laws/Encoding.lean ====
section
/-! SUPPORT. The fields of a packed command word (30_encoding.md R72), and the opcode map (R75). -/

namespace Sys2Proof

section
variable (op start : BitVec 4) (rsv b0 b1 b2 b3 b4 b5 b6 b7 b8 b9 : Byte)

/-- Every bit of a packed command word, by the field it falls in. -/
theorem packCommand_getLsbD (i : Nat) :
    (packCommand op start rsv b0 b1 b2 b3 b4 b5 b6 b7 b8 b9).getLsbD i =
      if i < 4 then op.getLsbD i else if i < 8 then start.getLsbD (i - 4)
      else if i < 16 then rsv.getLsbD (i - 8) else if i < 24 then b0.getLsbD (i - 16)
      else if i < 32 then b1.getLsbD (i - 24) else if i < 40 then b2.getLsbD (i - 32)
      else if i < 48 then b3.getLsbD (i - 40) else if i < 56 then b4.getLsbD (i - 48)
      else if i < 64 then b5.getLsbD (i - 56) else if i < 72 then b6.getLsbD (i - 64)
      else if i < 80 then b7.getLsbD (i - 72) else if i < 88 then b8.getLsbD (i - 80)
      else b9.getLsbD (i - 88) := by
  have cat : ∀ (n m k : Nat) (x : BitVec n) (y : BitVec m) (j : Nat), n + m = k →
      BitVec.getLsbD (w := n + m) (x ++ y) j = if j < m then y.getLsbD j else x.getLsbD (j - m) :=
    fun n m k x y j _ => BitVec.getLsbD_append
  unfold packCommand
  refine (cat 92 4 96 _ op _ rfl).trans (if_congr Iff.rfl rfl ?_)
  refine (cat 88 4 92 _ start _ rfl).trans (if_congr (by omega) rfl ?_)
  refine (cat 80 8 88 _ rsv _ rfl).trans (if_congr (by omega) (congrArg _ (by omega)) ?_)
  refine (cat 72 8 80 _ b0 _ rfl).trans (if_congr (by omega) (congrArg _ (by omega)) ?_)
  refine (cat 64 8 72 _ b1 _ rfl).trans (if_congr (by omega) (congrArg _ (by omega)) ?_)
  refine (cat 56 8 64 _ b2 _ rfl).trans (if_congr (by omega) (congrArg _ (by omega)) ?_)
  refine (cat 48 8 56 _ b3 _ rfl).trans (if_congr (by omega) (congrArg _ (by omega)) ?_)
  refine (cat 40 8 48 _ b4 _ rfl).trans (if_congr (by omega) (congrArg _ (by omega)) ?_)
  refine (cat 32 8 40 _ b5 _ rfl).trans (if_congr (by omega) (congrArg _ (by omega)) ?_)
  refine (cat 24 8 32 _ b6 _ rfl).trans (if_congr (by omega) (congrArg _ (by omega)) ?_)
  refine (cat 16 8 24 _ b7 _ rfl).trans (if_congr (by omega) (congrArg _ (by omega)) ?_)
  refine (cat 8 8 16 _ b8 _ rfl).trans (if_congr (by omega) (congrArg _ (by omega)) ?_)
  exact congrArg _ (by omega)

@[simp] theorem packCommand_op :
    Cmd.opField (packCommand op start rsv b0 b1 b2 b3 b4 b5 b6 b7 b8 b9) = op := by
  apply BitVec.eq_of_getLsbD_eq
  intro i hi
  simp only [Cmd.opField, BitVec.getLsbD_extractLsb', packCommand_getLsbD]
  simp [hi]

@[simp] theorem packCommand_start :
    Cmd.startField (packCommand op start rsv b0 b1 b2 b3 b4 b5 b6 b7 b8 b9) = start := by
  apply BitVec.eq_of_getLsbD_eq
  intro i hi
  simp only [Cmd.startField, BitVec.getLsbD_extractLsb', packCommand_getLsbD]
  simp [hi, show 4 + i < 8 by omega]

/-- The operand bytes of a packed command word. -/
theorem packCommand_byte (p : Nat) (hp : p < 10) :
    Cmd.byteField (packCommand op start rsv b0 b1 b2 b3 b4 b5 b6 b7 b8 b9) p =
      [b0, b1, b2, b3, b4, b5, b6, b7, b8, b9].getD p 0 := by
  apply BitVec.eq_of_getLsbD_eq
  intro i hi
  simp only [Cmd.byteField, BitVec.getLsbD_extractLsb', packCommand_getLsbD, hi]
  have h4 : ¬ 8 * p + 16 + i < 16 := by omega
  rw [if_neg (by omega), if_neg (by omega), if_neg h4]
  interval_cases p <;> (repeat rw [if_neg (by omega)]) <;> (try rw [if_pos (by omega)]) <;>
    simp [show ∀ k, k + i - k = i by omega]
end

@[simp] theorem opField_packBytes (op : Op) (start : BitVec 4) (w : List Byte) :
    (packBytes op start w).opField = op.code := packCommand_op ..

@[simp] theorem startField_packBytes (op : Op) (start : BitVec 4) (w : List Byte) :
    (packBytes op start w).startField = start := packCommand_start ..

@[simp] theorem byteField_packBytes (op : Op) (start : BitVec 4) (w : List Byte) (p : Nat) (hp : p < 10) :
    (packBytes op start w).byteField p = w.getD p 0 := by
  rw [packBytes, packCommand_byte _ _ _ _ _ _ _ _ _ _ _ _ _ p hp]
  interval_cases p <;> rfl

/-- The opcode map read forwards and backwards (30_encoding.md R75). -/
@[simp] theorem ofCode_code (op : Op) : Op.ofCode op.code = op := by cases op <;> rfl

theorem code_ofCode (c : BitVec 4) : (Op.ofCode c).code = c := by
  revert c; decide

/-- The command decoded from a word is one of the operation its selector names (30_encoding.md R75). -/
theorem op_decode (c : Cmd) : (decode c).op = Op.ofCode c.opField := by
  unfold decode
  cases h : Op.ofCode c.opField <;> rfl

/-- The selector of a word, as a number (30_encoding.md R72). -/
theorem opField_toNat (c : Cmd) : c.opField.toNat = c.toNat % 16 := by
  simp [Cmd.opField, BitVec.extractLsb'_toNat]

/-- A list of ten bytes is its ten entries. -/
theorem list_ten {w : List Byte} (h : w.length = 10) :
    w = [w.getD 0 0, w.getD 1 0, w.getD 2 0, w.getD 3 0, w.getD 4 0, w.getD 5 0, w.getD 6 0, w.getD 7 0,
      w.getD 8 0, w.getD 9 0] := by
  rcases w with _ | ⟨a0, _ | ⟨a1, _ | ⟨a2, _ | ⟨a3, _ | ⟨a4, _ | ⟨a5, _ | ⟨a6, _ | ⟨a7, _ | ⟨a8, _ |
    ⟨a9, _ | ⟨a10, w⟩⟩⟩⟩⟩⟩⟩⟩⟩⟩⟩ <;> simp at h ⊢

/-- The window of a word packed from ten bytes is those bytes. -/
theorem window_packBytes (op : Op) (start : BitVec 4) (w : List Byte) (h : w.length = 10) :
    (packBytes op start w).window = w := by
  conv_rhs => rw [list_ten h]
  simp only [Cmd.window, byteField_packBytes _ _ _ _ (show (0 : Nat) < 10 by omega),
    byteField_packBytes _ _ _ _ (show (1 : Nat) < 10 by omega),
    byteField_packBytes _ _ _ _ (show (2 : Nat) < 10 by omega),
    byteField_packBytes _ _ _ _ (show (3 : Nat) < 10 by omega),
    byteField_packBytes _ _ _ _ (show (4 : Nat) < 10 by omega),
    byteField_packBytes _ _ _ _ (show (5 : Nat) < 10 by omega),
    byteField_packBytes _ _ _ _ (show (6 : Nat) < 10 by omega),
    byteField_packBytes _ _ _ _ (show (7 : Nat) < 10 by omega),
    byteField_packBytes _ _ _ _ (show (8 : Nat) < 10 by omega),
    byteField_packBytes _ _ _ _ (show (9 : Nat) < 10 by omega)]

end Sys2Proof
end

