-- ==== Sys2Proof/Laws/Header.lean ====
section
/-! SUPPORT. What the field decoders, the validators and header extraction answer, as arithmetic on bytes. -/

namespace Sys2Proof.Machine

/-! ### Field decoders -/

theorem decodeInteger_toNat (b0 b1 b2 b3 : Byte) : (decodeInteger b0 b1 b2 b3).toNat =
    b0.toNat * 2 ^ 24 + b1.toNat * 2 ^ 16 + b2.toNat * 2 ^ 8 + b3.toNat := by
  have cat : ∀ (n m k : Nat) (x : BitVec n) (y : BitVec m), n + m = k →
      BitVec.toNat (w := n + m) (x ++ y) = x.toNat * 2 ^ m + y.toNat := by
    intro n m k x y _
    rw [BitVec.toNat_append, ← Nat.shiftLeft_add_eq_or_of_lt y.isLt, Nat.shiftLeft_eq]
  have h1 := cat 8 8 16 b0 b1 rfl
  have h2 := cat 16 8 24 (b0 ++ b1) b2 rfl
  have h3 := cat 24 8 32 (b0 ++ b1 ++ b2) b3 rfl
  have h : (decodeInteger b0 b1 b2 b3).toNat = BitVec.toNat (w := 24 + 8) (b0 ++ b1 ++ b2 ++ b3) := rfl
  rw [h, h3]
  omega

/-- The low seven bits of each byte of a big-endian sum. -/
theorem group_of_sum (a b c d : Nat) (hb : b < 256) (hc : c < 256) (hd : d < 256) :
    (a * 2 ^ 24 + b * 2 ^ 16 + c * 2 ^ 8 + d) / 2 ^ 24 % 128 = a % 128 ∧
    (a * 2 ^ 24 + b * 2 ^ 16 + c * 2 ^ 8 + d) / 2 ^ 16 % 128 = b % 128 ∧
    (a * 2 ^ 24 + b * 2 ^ 16 + c * 2 ^ 8 + d) / 2 ^ 8 % 128 = c % 128 ∧
    (a * 2 ^ 24 + b * 2 ^ 16 + c * 2 ^ 8 + d) / 2 ^ 0 % 128 = d % 128 := by
  have e1 : (a * 2 ^ 24 + b * 2 ^ 16 + c * 2 ^ 8 + d) / 2 ^ 24 = a := by omega
  have e2 : (a * 2 ^ 24 + b * 2 ^ 16 + c * 2 ^ 8 + d) / 2 ^ 16 = a * 2 ^ 8 + b := by omega
  have e3 : (a * 2 ^ 24 + b * 2 ^ 16 + c * 2 ^ 8 + d) / 2 ^ 8 = a * 2 ^ 16 + b * 2 ^ 8 + c := by omega
  rw [e1, e2, e3]
  omega

theorem syncsafeGroups_toNat (b0 b1 b2 b3 : Byte) : (syncsafeGroups b0 b1 b2 b3).toNat =
    b0.toNat % 128 * 2 ^ 21 + b1.toNat % 128 * 2 ^ 14 + b2.toNat % 128 * 2 ^ 7 + b3.toNat % 128 := by
  have cat : ∀ (n m k : Nat) (x : BitVec n) (y : BitVec m), n + m = k →
      BitVec.toNat (w := n + m) (x ++ y) = x.toNat * 2 ^ m + y.toNat := by
    intro n m k x y _
    rw [BitVec.toNat_append, ← Nat.shiftLeft_add_eq_or_of_lt y.isLt, Nat.shiftLeft_eq]
  have hv := decodeInteger_toNat b0 b1 b2 b3
  unfold syncsafeGroups
  generalize decodeInteger b0 b1 b2 b3 = v at hv ⊢
  have g : ∀ k, (v.extractLsb' k 7).toNat = v.toNat / 2 ^ k % 128 := by
    intro k; simp [BitVec.extractLsb'_toNat, Nat.shiftRight_eq_div_pow]
  have h1 := cat 7 7 14 (v.extractLsb' 24 7) (v.extractLsb' 16 7) rfl
  have h2 := cat 14 7 21 (v.extractLsb' 24 7 ++ v.extractLsb' 16 7) (v.extractLsb' 8 7) rfl
  have h3 := cat 21 7 28 (v.extractLsb' 24 7 ++ v.extractLsb' 16 7 ++ v.extractLsb' 8 7) (v.extractLsb' 0 7) rfl
  rw [g] at h1 h2 h3
  rw [g] at h1
  have e : ∀ x : BitVec 28, x = (v.extractLsb' 24 7 ++ v.extractLsb' 16 7 ++ v.extractLsb' 8 7 ++
      v.extractLsb' 0 7 : BitVec (21 + 7)) → x.toNat =
        b0.toNat % 128 * 2 ^ 21 + b1.toNat % 128 * 2 ^ 14 + b2.toNat % 128 * 2 ^ 7 + b3.toNat % 128 := by
    rintro x rfl
    rw [h3]
    have ⟨q0, q1, q2, q3⟩ := group_of_sum b0.toNat b1.toNat b2.toNat b3.toNat b1.isLt b2.isLt b3.isLt
    rw [← hv] at q0 q1 q2 q3
    rw [q0] at h1
    rw [q1] at h1
    rw [q2] at h2
    rw [q3, h2, h1]
    ring
  exact e _ rfl

theorem decodeSyncsafe_toNat (b0 b1 b2 b3 : Byte) :
    (decodeSyncsafe b0 b1 b2 b3).toNat = (syncsafeGroups b0 b1 b2 b3).toNat := by
  have := (syncsafeGroups b0 b1 b2 b3).isLt
  simp only [decodeSyncsafe, BitVec.toNat_setWidth]
  omega

theorem syncsafeByte_toNat (g : BitVec 7) : (syncsafeByte g).toNat = g.toNat := by
  have h : (syncsafeByte g).toNat = BitVec.toNat (w := 1 + 7) (0#1 ++ g) := rfl
  rw [h, BitVec.toNat_append]
  simp

/-! ### Bits and byte predicates -/

theorem bitSet_iff (x : Byte) (i : Nat) : bitSet x i = true ↔ x.toNat / 2 ^ i % 2 = 1 := by
  simp [bitSet, BitVec.getLsbD, Nat.testBit_eq_decide_div_mod_eq]

theorem bitSet_bitIs (x : Byte) (i : Nat) : BitIs x i (bitSet x i) := bitSet_iff x i

theorem bitsZero_low4 : ∀ x : Byte, bitsZero [0, 1, 2, 3] x = true ↔ x.toNat % 16 = 0 := by decide

theorem bitsZero_low5 : ∀ x : Byte, bitsZero [0, 1, 2, 3, 4] x = true ↔ x.toNat % 32 = 0 := by decide

theorem bitsZero_high : ∀ x : Byte, bitsZero [7] x = true ↔ x.toNat < 128 := by decide

theorem idChar_iff : ∀ x : Byte, idChar x = true ↔
    (0x41 ≤ x.toNat ∧ x.toNat ≤ 0x5A) ∨ (0x30 ≤ x.toNat ∧ x.toNat ≤ 0x39) := by decide

theorem oneOf_iff (S : List Byte) (x : Byte) : oneOf S x = true ↔ x ∈ S := by simp [oneOf]

theorem byte_eq_iff (x : Byte) (n : Nat) (h : n < 256) : x = BitVec.ofNat 8 n ↔ x.toNat = n := by
  constructor
  · rintro rfl; simp [Nat.mod_eq_of_lt h]
  · intro e; apply BitVec.eq_of_toNat_eq; simp [e, Nat.mod_eq_of_lt h]

/-! ### Windows and validators -/

/-- A window in logical order, spelled out. -/
theorem logicalWindow_eq (w : List Byte) (start : Nat) : logicalWindow w start =
    [byteAt w ((0 + start) % 10), byteAt w ((1 + start) % 10), byteAt w ((2 + start) % 10),
     byteAt w ((3 + start) % 10), byteAt w ((4 + start) % 10), byteAt w ((5 + start) % 10),
     byteAt w ((6 + start) % 10), byteAt w ((7 + start) % 10), byteAt w ((8 + start) % 10),
     byteAt w ((9 + start) % 10)] := rfl

@[simp] theorem logicalWindow_length (w : List Byte) (start : Nat) : (logicalWindow w start).length = 10 := rfl

theorem byteAt_logicalWindow (w : List Byte) (start p : Nat) (hp : p < 10) :
    byteAt (logicalWindow w start) p = byteAt w ((p + start) % 10) := by
  rw [logicalWindow_eq]
  interval_cases p <;> rfl

/-- The ten tag-header predicates are the rule table of 41_header_validators.md R113. -/
theorem allAccept_tag_iff (w : List Byte) (start : Nat) :
    allAccept tagPredicates (logicalWindow w start) = true ↔ TagHeaderShape w start := by
  rw [logicalWindow_eq]
  simp only [tagPredicates, allAccept, Bool.and_eq_true, and_true, bitsZero_low4, bitsZero_high, oneOf_iff,
    hdrVersions, List.mem_cons, List.not_mem_nil, or_false, TagHeaderShape]
  simp [BitVec.toNat_eq]

/-- The frame-header validator is the rule table of 41_header_validators.md R117. -/
theorem containsHeaderBytes_frame_iff (w : List Byte) :
    containsHeaderBytes framePredicates w = true ↔ w.length = 10 ∧ FrameHeaderShape w := by
  unfold containsHeaderBytes hdrLen
  by_cases h : w.length = 10
  · rcases w with _ | ⟨a0, _ | ⟨a1, _ | ⟨a2, _ | ⟨a3, _ | ⟨a4, _ | ⟨a5, _ | ⟨a6, _ | ⟨a7, _ | ⟨a8, _ |
      ⟨a9, _ | ⟨a10, w⟩⟩⟩⟩⟩⟩⟩⟩⟩⟩⟩ <;> simp at h
    simp [framePredicates, allAccept, anyByte, idChar_iff, bitsZero_low5, FrameHeaderShape, IdCode, byteAt]
  · simp [h]

/-- What the tag-header check answers (41_header_validators.md R114). -/
theorem tagHeaderCheck_cases (w : List Byte) (start : Nat) :
    (10 ≤ start ∧ tagHeaderCheck w start = .addrError) ∨
    (start < 10 ∧ ¬ (w.length = 10 ∧ TagHeaderShape w start) ∧ tagHeaderCheck w start = .verdict false) ∨
    (start < 10 ∧ w.length = 10 ∧ TagHeaderShape w start ∧ tagHeaderCheck w start = .verdict true) := by
  unfold tagHeaderCheck hdrLen
  by_cases hs : 10 ≤ start
  · simp [hs]
  · by_cases hw : w.length = 10
    · have := allAccept_tag_iff w start
      by_cases hc : TagHeaderShape w start
      · simp [hs, hw, hc, this.mpr hc]; omega
      · have : allAccept tagPredicates (logicalWindow w start) = false := by
          simpa [hc] using this
        simp [hs, hw, hc, this]; omega
    · simp [hs, hw]; omega

/-! ### Extraction -/

theorem extractTagHeader_of (w : List Byte) (start : Nat) :
    TagHeaderOf w start (extractTagHeader (logicalWindow w start)) := by
  simp only [TagHeaderOf, extractTagHeader]
  refine ⟨byteAt_logicalWindow _ _ _ (by omega), ?_, ?_, ?_, ?_, ?_⟩
  · rw [byteAt_logicalWindow _ _ _ (by omega)]; exact bitSet_bitIs _ _
  · rw [byteAt_logicalWindow _ _ _ (by omega)]; exact bitSet_bitIs _ _
  · rw [byteAt_logicalWindow _ _ _ (by omega)]; exact bitSet_bitIs _ _
  · rw [byteAt_logicalWindow _ _ _ (by omega)]; exact bitSet_bitIs _ _
  · rw [syncsafeGroups_toNat, byteAt_logicalWindow _ _ _ (by omega), byteAt_logicalWindow _ _ _ (by omega),
      byteAt_logicalWindow _ _ _ (by omega), byteAt_logicalWindow _ _ _ (by omega)]

/-- What the tag-header decode answers (42_header_decode.md R130). -/
theorem tagHeaderDecode_cases (w : List Byte) (start : Nat) :
    (10 ≤ start ∧ tagHeaderDecode w start = .error .addrError) ∨
    (start < 10 ∧ ¬ (w.length = 10 ∧ TagHeaderShape w start) ∧
      tagHeaderDecode w start = .error .headerInvalid) ∨
    (start < 10 ∧ w.length = 10 ∧ TagHeaderShape w start ∧
      tagHeaderDecode w start = .ok (extractTagHeader (logicalWindow w start))) := by
  unfold tagHeaderDecode
  rcases tagHeaderCheck_cases w start with ⟨h, e⟩ | ⟨h, h', e⟩ | ⟨h, h', h'', e⟩ <;> rw [e]
  · exact .inl ⟨h, rfl⟩
  · exact .inr (.inl ⟨h, h', rfl⟩)
  · exact .inr (.inr ⟨h, h', h'', rfl⟩)

theorem frameTypeOf_text_iff (x : Byte) : frameTypeOf x = .text ↔ x.toNat = 0x54 := by
  rw [← byte_eq_iff x 0x54 (by omega)]
  simp [frameTypeOf]

theorem extractFrameHeader_fields (m : FrameFlagMap) (w : List Byte) :
    FrameFieldsOf w (extractFrameHeader m w) :=
  ⟨rfl, decodeInteger_toNat .., frameTypeOf_text_iff _⟩

theorem frameFlag_flagAt (w : List Byte) (p : FlagPos) : FlagAt w p (frameFlag p (byteAt w 8) (byteAt w 9)) := by
  cases p <;> exact bitSet_bitIs _ _

/-- The six flags stand where the map puts them, whatever the map (42_header_decode.md R134). -/
theorem extractFrameHeader_flags (m : FrameFlagMap) (w : List Byte) : FrameFlagsOf m w (extractFrameHeader m w) :=
  ⟨frameFlag_flagAt _ _, frameFlag_flagAt _ _, frameFlag_flagAt _ _, frameFlag_flagAt _ _, frameFlag_flagAt _ _,
    frameFlag_flagAt _ _⟩

/-- The default map is the ID3v2.3 layout (42_header_decode.md R134). -/
theorem frameFlagsOf_id3v23 (w : List Byte) (fh : FrameHeader) :
    FrameFlagsOf id3v23FlagMap w fh ↔ Id3v23FlagsOf w fh := Iff.rfl

/-- What the frame-header decode answers (42_header_decode.md R133). -/
theorem frameHeaderDecode_cases (m : FrameFlagMap) (w : List Byte) :
    (¬ (w.length = 10 ∧ FrameHeaderShape w) ∧ frameHeaderDecode m w = .error .headerInvalid) ∨
    (w.length = 10 ∧ FrameHeaderShape w ∧ frameHeaderDecode m w = .ok (extractFrameHeader m w)) := by
  unfold frameHeaderDecode
  by_cases h : containsHeaderBytes framePredicates w = true
  · rw [if_pos h]
    rw [containsHeaderBytes_frame_iff] at h
    exact .inr ⟨h.1, h.2, rfl⟩
  · rw [if_neg h]
    rw [containsHeaderBytes_frame_iff] at h
    exact .inl ⟨h, rfl⟩

end Sys2Proof.Machine
end

