-- ==== Sys2Proof/Laws/Frame.lean ====
section
/-! SUPPORT. What the frame unit does (43_frame.md R150 to R154). -/

namespace Sys2Proof.Machine

/-- A frame record after it took a byte: the byte appended, the selector captured, closed when full
(43_frame.md R151, R152, R153). -/
def frameTaken (f : FrameRecord) (b : Byte) : FrameRecord :=
  { fh := f.fh, data := f.data ++ [b],
    st := if f.data.length + 1 = f.fh.size.toNat then .complete else f.st,
    inSrc := f.inSrc,
    enc := if f.data = [] ∧ f.fh.type = .text then (if b = 0x00 then .latin1 else .utf16) else f.enc }

theorem frameClose_eq (f : FrameRecord) : frameClose f =
    { f with st := if f.data.length = f.fh.size.toNat then .complete else f.st } := by
  unfold frameClose
  split <;> rfl

/-- The append, and what the selector of a TEXT frame's first byte answers (43_frame.md R151, R152). -/
theorem frameAppend_cases (f : FrameRecord) (b : Byte) :
    (f.data = [] ∧ f.fh.type = .text ∧ b ≠ 0x00 ∧ b ≠ 0x01 ∧
      frameAppend f b = .error (tagErr .textEncodingUnknown)) ∨
    ((f.data = [] → f.fh.type = .text → b = 0x00 ∨ b = 0x01) ∧
      frameAppend f b = .ok { f with
        data := f.data ++ [b],
        enc := if f.data = [] ∧ f.fh.type = .text then (if b = 0x00 then .latin1 else .utf16) else f.enc }) := by
  have hiff : ((f.data ++ [b]).length = 1 ∧ f.fh.type = .text) ↔ (f.data = [] ∧ f.fh.type = .text) := by simp
  unfold frameAppend
  by_cases hsel : f.data = [] ∧ f.fh.type = .text
  · simp only [if_pos (hiff.mpr hsel), if_pos hsel, selectEncoding]
    by_cases h0 : b = 0x00
    · exact .inr ⟨fun _ _ => .inl h0, by rw [if_pos h0, if_pos h0]⟩
    · by_cases h1 : b = 0x01
      · exact .inr ⟨fun _ _ => .inr h1, by rw [if_neg h0, if_pos h1, if_neg h0]⟩
      · exact .inl ⟨hsel.1, hsel.2, h0, h1, by rw [if_neg h0, if_neg h1]⟩
  · right
    refine ⟨fun h ht => absurd ⟨h, ht⟩ hsel, ?_⟩
    simp only [if_neg (fun h => hsel (hiff.mp h)), if_neg hsel]

/-- Everything `frameAddByte` can do (43_frame.md R151 to R153). -/
theorem frameAddByte_cases (f : FrameRecord) (b : Byte) :
    (f.st = .complete ∧ frameAddByte f b = .error (tagErr .frameAlreadyComplete)) ∨
    (f.st = .addingData ∧ f.data = [] ∧ f.fh.type = .text ∧ b ≠ 0x00 ∧ b ≠ 0x01 ∧
      frameAddByte f b = .error (tagErr .textEncodingUnknown)) ∨
    (f.st = .addingData ∧ (f.data = [] → f.fh.type = .text → b = 0x00 ∨ b = 0x01) ∧
      frameAddByte f b = .ok (frameTaken f b)) := by
  unfold frameAddByte
  cases hst : f.st with
  | complete => exact .inl ⟨rfl, rfl⟩
  | addingData =>
    rcases frameAppend_cases f b with ⟨hd, ht, h0, h1, e⟩ | ⟨hb, e⟩ <;> rw [e]
    · exact .inr (.inl ⟨rfl, hd, ht, h0, h1, rfl⟩)
    · refine .inr (.inr ⟨rfl, hb, ?_⟩)
      simp [frameClose_eq, frameTaken]

theorem frameAddByte_ok {f g : FrameRecord} {b : Byte} (h : frameAddByte f b = .ok g) :
    f.st = .addingData ∧ (f.data = [] → f.fh.type = .text → b = 0x00 ∨ b = 0x01) ∧ g = frameTaken f b := by
  rcases frameAddByte_cases f b with ⟨_, e⟩ | ⟨_, _, _, _, _, e⟩ | ⟨h1, h2, e⟩
  · rw [e] at h; cases h
  · rw [e] at h; cases h
  · rw [e] at h; cases h; exact ⟨h1, h2, rfl⟩

theorem frameAddByte_error {f : FrameRecord} {b : Byte} {e : TagError} (h : frameAddByte f b = .error e) :
    (f.st = .complete ∧ e = tagErr .frameAlreadyComplete) ∨ e = tagErr .textEncodingUnknown := by
  rcases frameAddByte_cases f b with ⟨h1, e1⟩ | ⟨_, _, _, _, _, e1⟩ | ⟨_, _, e1⟩ <;> rw [e1] at h <;> cases h
  · exact .inl ⟨h1, rfl⟩
  · exact .inr rfl

/-- A new frame record meets the invariants (43_frame.md R150, R154). -/
theorem frameInit_inv (fh : FrameHeader) (inSrc : Bool) : (frameInit fh inSrc).Inv := by
  constructor <;> simp [frameInit, BitVec.toNat_eq, eq_comm]

theorem frameInit_st (fh : FrameHeader) (inSrc : Bool) :
    (frameInit fh inSrc).st = if fh.size.toNat = 0 then .complete else .addingData := by
  simp [frameInit, BitVec.toNat_eq]

/-- Taking a byte keeps the invariants of a frame record that is still open (43_frame.md R154). -/
theorem frameTaken_inv {f : FrameRecord} {b : Byte} (hi : f.Inv) (hst : f.st = .addingData)
    (hb : f.data = [] → f.fh.type = .text → b = 0x00 ∨ b = 0x01) : (frameTaken f b).Inv := by
  obtain ⟨fits, comp, lat, utf, noe⟩ := hi
  have hlt : f.data.length < f.fh.size.toNat := by
    rcases Nat.lt_or_eq_of_le fits with h | h
    · exact h
    · rw [comp.mpr h] at hst; cases hst
  constructor
  · simpa [frameTaken] using hlt
  · simp only [frameTaken, List.length_append, List.length_cons, List.length_nil, Nat.zero_add]
    constructor
    · intro h; by_contra hne; rw [if_neg hne, hst] at h; cases h
    · intro h; rw [if_pos h]
  all_goals
    simp only [frameTaken]
    rcases hd : f.data with _ | ⟨d, ds⟩ <;> cases ht : f.fh.type <;> simp_all
  all_goals rcases hb with rfl | rfl <;> simp

/-! ### Whole payloads -/

/-- A payload in two parts (43_frame.md R151). -/
theorem frameAddBytes_append (f : FrameRecord) (xs ys : List Byte) : frameAddBytes f (xs ++ ys) =
    match frameAddBytes f xs with
    | .error e => .error e
    | .ok g => frameAddBytes g ys := by
  induction xs generalizing f with
  | nil => rfl
  | cons x xs ih =>
    simp only [List.cons_append, frameAddBytes]
    cases frameAddByte f x with
    | error e => rfl
    | ok g => exact ih g

/-- A frame record part of the way through its payload (43_frame.md R150 to R154). -/
def partway (fh : FrameHeader) (inSrc : Bool) (data : List Byte) : FrameRecord :=
  { fh := fh, data := data, st := if data.length = fh.size.toNat then .complete else .addingData,
    inSrc := inSrc, enc := selectedEnc fh.type data }

/-- A byte the payload accepts moves a frame record on by that byte (43_frame.md R151 to R153). -/
theorem frameAddByte_partway (fh : FrameHeader) (inSrc : Bool) (pre : List Byte) (x : Byte)
    (hl : pre.length < fh.size.toNat) (ha : fh.type = .text → pre = [] → x = 0x00 ∨ x = 0x01) :
    frameAddByte (partway fh inSrc pre) x = .ok (partway fh inSrc (pre ++ [x])) := by
  have hne : pre.length ≠ fh.size.toNat := by omega
  rcases frameAddByte_cases (partway fh inSrc pre) x with ⟨h, _⟩ | ⟨_, hd, ht, h0, h1, _⟩ | ⟨_, _, e⟩
  · simp [partway, hne] at h
  · exact ((ha ht hd).elim h0 h1).elim
  · rw [e]
    simp only [partway, frameTaken, List.length_append, List.length_cons, List.length_nil, Nat.zero_add,
      if_neg hne]
    congr 2
    rcases pre with _ | ⟨d, ds⟩ <;> cases htt : fh.type <;> simp [selectedEnc]

/-- An accepted payload that fits moves a frame record on by that payload. -/
theorem frameAddBytes_partway (fh : FrameHeader) (inSrc : Bool) (xs pre : List Byte)
    (hl : (pre ++ xs).length ≤ fh.size.toNat) (ha : PayloadAccepted fh.type (pre ++ xs)) :
    frameAddBytes (partway fh inSrc pre) xs = .ok (partway fh inSrc (pre ++ xs)) := by
  induction xs generalizing pre with
  | nil => simp [frameAddBytes]
  | cons x xs ih =>
    have hlt : pre.length < fh.size.toNat := by simp at hl; omega
    rw [frameAddBytes, frameAddByte_partway fh inSrc pre x hlt (fun ht hp => ha ht x (by simp [hp]))]
    have := ih (pre ++ [x]) (by simpa using hl) (by simpa using ha)
    simpa using this

theorem frameInit_partway (fh : FrameHeader) (inSrc : Bool) : frameInit fh inSrc = partway fh inSrc [] := by
  have h := frameInit_st fh inSrc
  rw [show frameInit fh inSrc = { frameInit fh inSrc with st := (frameInit fh inSrc).st } from rfl, h]
  simp only [partway, frameInit, List.length_nil, eq_comm (a := 0)]
  congr 1
  cases fh.type <;> rfl

end Sys2Proof.Machine
end

