-- ==== Sys2Proof/Laws/PerInstr.lean ====
section
/-! SUPPORT. Facts about every command as syntax, one lemma per constructor of Instr. -/

namespace Sys2Proof.Laws.SelectorOfWord

/-- The command word of a command selects the command's operation (30_encoding.md R72, R75). -/
def Statement (i : Instr) : Prop := (encode i).opField = i.op.code

theorem reserved0 : Statement .reserved0 := opField_packBytes ..
theorem byteIn (b : Byte) : Statement (.byteIn b) := opField_packBytes ..
theorem decodeInt (b0 b1 b2 b3 : Byte) : Statement (.decodeInt b0 b1 b2 b3) := opField_packBytes ..
theorem decodeSyncsafe (b0 b1 b2 b3 : Byte) : Statement (.decodeSyncsafe b0 b1 b2 b3) :=
  opField_packBytes ..
theorem tagHdrCheck (start : BitVec 4) (w : List Byte) : Statement (.tagHdrCheck start w) :=
  opField_packBytes ..
theorem frameHdrCheck (w : List Byte) : Statement (.frameHdrCheck w) := opField_packBytes ..
theorem tagHdrDecode (start : BitVec 4) (w : List Byte) : Statement (.tagHdrDecode start w) :=
  opField_packBytes ..
theorem frameHdrDecode (w : List Byte) : Statement (.frameHdrDecode w) := opField_packBytes ..
theorem defaultFrame (id : FrameId) : Statement (.defaultFrame id) := opField_packBytes ..
theorem frameLookup (id : FrameId) : Statement (.frameLookup id) := opField_packBytes ..
theorem textPayload : Statement .textPayload := opField_packBytes ..
theorem readStatus : Statement .readStatus := opField_packBytes ..
theorem reservedC : Statement .reservedC := opField_packBytes ..
theorem reservedD : Statement .reservedD := opField_packBytes ..
theorem reservedE : Statement .reservedE := opField_packBytes ..
theorem reset : Statement .reset := opField_packBytes ..

end Sys2Proof.Laws.SelectorOfWord
end

