-- ==== Sys2Proof/Laws/State.lean ====
section
/-! SUPPORT. One lemma per field and update of State and Block, true by unfolding. -/

namespace Sys2Proof.Machine

section
variable (s : State) (r : Response) (b : Block)

@[simp] theorem respond_cfg : (respond s r).cfg = s.cfg := rfl
@[simp] theorem respond_blk : (respond s r).blk = s.blk := rfl
@[simp] theorem respond_input : (respond s r).input = s.input := rfl
@[simp] theorem respond_recIn : (respond s r).recIn = s.recIn := rfl
@[simp] theorem respond_frecIn : (respond s r).frecIn = s.frecIn := rfl
@[simp] theorem respond_resp : (respond s r).resp = r := rfl
@[simp] theorem respond_evtOut : (respond s r).evtOut = [] := rfl

@[simp] theorem commit_cfg : (commit s b r).cfg = s.cfg := rfl
@[simp] theorem commit_blk : (commit s b r).blk = b := rfl
@[simp] theorem commit_input : (commit s b r).input = s.input := rfl
@[simp] theorem commit_recIn : (commit s b r).recIn = s.recIn := rfl
@[simp] theorem commit_frecIn : (commit s b r).frecIn = s.frecIn := rfl
@[simp] theorem commit_resp : (commit s b r).resp = r := rfl
@[simp] theorem commit_evtOut : (commit s b r).evtOut = b.events := rfl
end

section
variable (s : State) (tr : TagRecord) (fr : FrameRecord) (rest : List HostInput)

@[simp] theorem acceptCommand_cfg : (acceptCommand s tr fr rest).cfg = s.cfg := rfl
@[simp] theorem acceptCommand_blk : (acceptCommand s tr fr rest).blk = s.blk := rfl
@[simp] theorem acceptCommand_input : (acceptCommand s tr fr rest).input = rest := rfl
@[simp] theorem acceptCommand_recIn : (acceptCommand s tr fr rest).recIn = tr := rfl
@[simp] theorem acceptCommand_frecIn : (acceptCommand s tr fr rest).frecIn = fr := rfl
@[simp] theorem acceptCommand_resp : (acceptCommand s tr fr rest).resp = s.resp := rfl
@[simp] theorem acceptCommand_evtOut : (acceptCommand s tr fr rest).evtOut = s.evtOut := rfl

@[simp] theorem acceptResetPin_cfg : (acceptResetPin s rest).cfg = s.cfg := rfl
@[simp] theorem acceptResetPin_blk : (acceptResetPin s rest).blk = s.blk := rfl
@[simp] theorem acceptResetPin_input : (acceptResetPin s rest).input = rest := rfl
@[simp] theorem acceptResetPin_recIn : (acceptResetPin s rest).recIn = s.recIn := rfl
@[simp] theorem acceptResetPin_frecIn : (acceptResetPin s rest).frecIn = s.frecIn := rfl
@[simp] theorem acceptResetPin_resp : (acceptResetPin s rest).resp = s.resp := rfl
@[simp] theorem acceptResetPin_evtOut : (acceptResetPin s rest).evtOut = s.evtOut := rfl
end

section
variable (s : Block) (e : Event) (i : Fin 10) (v : Byte)

@[simp] theorem emit_rb : (s.emit e).rb = s.rb := rfl
@[simp] theorem emit_rbWr : (s.emit e).rbWr = s.rbWr := rfl
@[simp] theorem emit_rbFill : (s.emit e).rbFill = s.rbFill := rfl
@[simp] theorem emit_rbStart : (s.emit e).rbStart = s.rbStart := rfl
@[simp] theorem emit_openTags : (s.emit e).openTags = s.openTags := rfl
@[simp] theorem emit_events : (s.emit e).events = s.events ++ [e] := rfl

@[simp] theorem memWrite_rb : (s.memWrite i v).rb = s.rb.set i v := rfl
@[simp] theorem memWrite_rbWr : (s.memWrite i v).rbWr = s.rbWr := rfl
@[simp] theorem memWrite_rbFill : (s.memWrite i v).rbFill = s.rbFill := rfl
@[simp] theorem memWrite_rbStart : (s.memWrite i v).rbStart = s.rbStart := rfl
@[simp] theorem memWrite_openTags : (s.memWrite i v).openTags = s.openTags := rfl
@[simp] theorem memWrite_events : (s.memWrite i v).events = s.events := rfl

@[simp] theorem ringInsert_rb : (ringInsert s v).rb = s.rb.set s.rbWr v := rfl
@[simp] theorem ringInsert_rbWr : (ringInsert s v).rbWr = s.rbWr + 1 := rfl
@[simp] theorem ringInsert_rbFill : (ringInsert s v).rbFill = nextFill s.rbFill := rfl
@[simp] theorem ringInsert_rbStart :
    (ringInsert s v).rbStart = if nextFill s.rbFill = 10 then s.rbWr + 1 else 0 := rfl
@[simp] theorem ringInsert_openTags : (ringInsert s v).openTags = s.openTags := rfl
@[simp] theorem ringInsert_events : (ringInsert s v).events = s.events := rfl
end

section
variable (P : Params) (s : Block) (v : Byte)

@[simp] theorem feedStep_rb : (feedStep P s v).rb = s.rb := rfl
@[simp] theorem feedStep_rbWr : (feedStep P s v).rbWr = s.rbWr := rfl
@[simp] theorem feedStep_rbFill : (feedStep P s v).rbFill = s.rbFill := rfl
@[simp] theorem feedStep_rbStart : (feedStep P s v).rbStart = s.rbStart := rfl
@[simp] theorem feedStep_openTags : (feedStep P s v).openTags = (feedOpen P v s.openTags).1 := rfl
@[simp] theorem feedStep_events : (feedStep P s v).events = (feedOpen P v s.openTags).2 := rfl
end

end Sys2Proof.Machine
end

