-- ==== Sys2Proof/Laws/Ring.lean ====
section
/-! SUPPORT. The circular buffer: what a ring insert does to the bytes held (45_scanner.md R205). -/

namespace Sys2Proof.Machine

theorem nextFill_val (n : Fin 11) : (nextFill n).val = min 10 (n.val + 1) := by
  unfold nextFill
  have := n.isLt
  split
  · simp only; omega
  · omega

theorem fin10_succ_val (n : Fin 10) : (n + 1).val = (n.val + 1) % 10 := by
  rw [Fin.val_add]; rfl

theorem held_length (s : Block) : s.held.length = s.rbFill.val := by simp [Block.held]

/-- Slot i of the buffer as the held bytes see it. -/
theorem held_getElem (s : Block) (p : Nat) (hp : p < s.held.length) :
    s.held[p] = s.rb[(p + s.rbStart.val) % 10]'(Nat.mod_lt _ (by omega)) := by
  simp only [Block.held, List.getElem_map, List.getElem_range]
  have h : (p + s.rbStart.val) % 10 < s.rb.toList.length := by
    rw [Vector.length_toList]; exact Nat.mod_lt _ (by omega)
  rw [List.getD_eq_getElem _ _ h, Vector.getElem_toList]

/-- A ring insert keeps the relation of the registers (10_state.md R24). -/
theorem ringInsert_ringInv {s : Block} (h : s.RingInv) (b : Byte) : (ringInsert s b).RingInv := by
  obtain ⟨_, hf⟩ := h
  have hn := nextFill_val s.rbFill
  constructor
  · rfl
  · intro hlt
    simp only [ringInsert_rbFill, ringInsert_rbWr] at hlt ⊢
    rw [hn] at hlt ⊢
    rw [fin10_succ_val, hf (by omega)]
    omega

theorem start_val {s : Block} (h : s.RingInv) :
    s.rbStart.val = if s.rbFill.val = 10 then s.rbWr.val else 0 := by
  rw [h.start, apply_ite Fin.val]
  have : s.rbFill = 10 ↔ s.rbFill.val = 10 := by rw [Fin.ext_iff]; rfl
  simp only [this]
  rfl

/-- After a ring insert the buffer holds the last ten of the bytes it held and the new byte (45_scanner.md R205). -/
theorem ringInsert_held {s : Block} (h : s.RingInv) (b : Byte) :
    (ringInsert s b).held = lastN 10 (s.held ++ [b]) := by
  have hfill := nextFill_val s.rbFill
  have hlt := s.rbFill.isLt
  have hwr := s.rbWr.isLt
  have hstart := start_val h
  have hstart' := start_val (ringInsert_ringInv h b)
  simp only [ringInsert_rbFill, ringInsert_rbWr, hfill, fin10_succ_val] at hstart'
  have hfw := h.fill
  apply List.ext_getElem
  · simp only [held_length, ringInsert_rbFill, hfill, lastN, List.length_drop, List.length_append,
      List.length_cons, List.length_nil]
    omega
  · intro p hp hp'
    have hp1 : p < min 10 (s.rbFill.val + 1) := by
      simpa only [held_length, ringInsert_rbFill, hfill] using hp
    rw [held_getElem]
    simp only [ringInsert_rb, lastN, List.getElem_drop, List.getElem_append, held_length, List.length_append,
      List.length_cons, List.length_nil, Vector.getElem_set]
    split
    · rename_i hslot
      rw [dif_neg]
      · simp
      · rw [hstart'] at hslot
        split_ifs at hslot hstart <;> omega
    · rename_i hslot
      rw [dif_pos]
      · rw [held_getElem]
        congr 1
        rw [hstart'] at hslot ⊢
        rw [hstart]
        split_ifs at hslot ⊢ <;> omega
      · rw [hstart'] at hslot
        split_ifs at hslot hstart <;> omega

/-- The last ten bytes of a stream, taken in two parts. -/
theorem lastN_lastN (xs ys : List Byte) : lastN 10 (lastN 10 xs ++ ys) = lastN 10 (xs ++ ys) := by
  simp only [lastN, List.length_append, List.length_drop]
  rw [← List.drop_append_of_le_length (by omega), List.drop_drop]
  congr 1
  omega

end Sys2Proof.Machine
end

