-- ==== Sys2Proof/Laws/Tag.lean ====
section
/-! SUPPORT. What the tag state machine does (44_tag.md R170 to R185), and that it keeps the invariants of a context. -/

namespace Sys2Proof.Machine

/-! ### A complete frame header -/

theorem boundFull_false_iff (B : Bound) (k : Nat) : boundFull B k = false ↔ ∀ n, B = .atMost n → k < n := by
  cases B <;> simp [boundFull]

theorem boundExceeded_false_iff (B : Bound) (k : Nat) :
    boundExceeded B k = false ↔ ∀ n, B = .atMost n → k ≤ n := by
  cases B <;> simp [boundExceeded]

/-- The support check passes exactly for a new identifier and no compressed or encrypted TEXT frame (44_tag.md R175). -/
theorem frameSupportCheck_none_iff (t : TagContext) (fh : FrameHeader) : frameSupportCheck t fh = none ↔
    (∀ g ∈ t.frames, g.fh.id ≠ fh.id) ∧ (fh.type = .text → fh.comp = false ∧ fh.encr = false) := by
  unfold frameSupportCheck
  split
  · rename_i h; simp only [List.any_eq_true, decide_eq_true_eq] at h
    obtain ⟨g, hg, he⟩ := h
    simp only [reduceCtorEq, false_iff, not_and]
    intro h'; exact absurd he (h' g hg)
  · rename_i h
    have h' : ∀ g ∈ t.frames, g.fh.id ≠ fh.id := by simpa using h
    split
    · rename_i hc; simp only [reduceCtorEq, false_iff, not_and]
      intro _ hx; have := (hx hc.1).1; rw [hc.2] at this; cases this
    · rename_i hc
      split
      · rename_i he; simp only [reduceCtorEq, false_iff, not_and]
        intro _ hx; have := (hx he.1).2; rw [he.2] at this; cases this
      · rename_i he; simp only [true_iff]
        refine ⟨h', fun ht => ⟨?_, ?_⟩⟩
        · cases hv : fh.comp
          · rfl
          · exact absurd ⟨ht, hv⟩ hc
        · cases hv : fh.encr
          · rfl
          · exact absurd ⟨ht, hv⟩ he

/-- The capacity check passes exactly within both bounds (44_tag.md R176). -/
theorem capacityCheck_none_iff (P : Params) (t : TagContext) (fh : FrameHeader) : capacityCheck P t fh = none ↔
    (∀ n, P.frameSlots = .atMost n → t.frames.length < n) ∧
    (∀ n, P.dataBytes = .atMost n → declaredBytes t.frames + fh.size.toNat ≤ n) := by
  rw [← boundFull_false_iff, ← boundExceeded_false_iff]
  unfold capacityCheck
  cases boundFull P.frameSlots t.frames.length <;>
    cases boundExceeded P.dataBytes (declaredBytes t.frames + fh.size.toNat) <;> simp

/-- The codes a context may raise while it meets its invariants (44_tag.md R187). -/
def TagError.Legal (e : TagError) : Prop :=
  e.code ≠ .frameAlreadyComplete ∧ e.code ≠ .noFrame ∧ e.code ≠ .tagAlreadyComplete ∧
    e.code ≠ .tagHeaderInvalid ∧ (e.cap ≠ .none ↔ e.code = .capacity)

theorem frameSupportCheck_legal {t : TagContext} {fh : FrameHeader} {e : TagError}
    (h : frameSupportCheck t fh = some e) : e.Legal := by
  unfold frameSupportCheck at h
  split at h
  · cases h; simp [TagError.Legal, tagErr]
  · split at h
    · cases h; simp [TagError.Legal, tagErr]
    · split at h
      · cases h; simp [TagError.Legal, tagErr]
      · cases h

theorem capacityCheck_legal {P : Params} {t : TagContext} {fh : FrameHeader} {e : TagError}
    (h : capacityCheck P t fh = some e) : e.Legal := by
  unfold capacityCheck at h
  split at h
  · cases h; simp [TagError.Legal, capacityErr]
  · split at h
    · cases h; simp [TagError.Legal, capacityErr]
    · cases h

/-- Everything a complete frame header can do (44_tag.md R174 to R177). -/
theorem headerComplete_cases (P : Params) (t : TagContext) (w : List Byte) :
    (∃ e, headerComplete P t w = .error e ∧ e.Legal) ∨
    (∃ fh, w.length = 10 ∧ FrameHeaderShape w ∧ fh = extractFrameHeader P.flagMap w ∧
      frameSupportCheck t fh = none ∧ capacityCheck P t fh = none ∧
      headerComplete P t w = .ok (appendFrame t fh)) := by
  unfold headerComplete
  rcases frameHeaderDecode_cases P.flagMap w with ⟨_, e⟩ | ⟨hl, hs, e⟩ <;> rw [e]
  · exact .inl ⟨_, rfl, by simp [TagError.Legal, tagErr]⟩
  · simp only
    cases hc : frameSupportCheck t (extractFrameHeader P.flagMap w) with
    | some e => exact .inl ⟨e, rfl, frameSupportCheck_legal hc⟩
    | none =>
      cases hk : capacityCheck P t (extractFrameHeader P.flagMap w) with
      | some e => exact .inl ⟨e, rfl, capacityCheck_legal hk⟩
      | none => exact .inr ⟨_, hl, hs, rfl, hc, hk, rfl⟩

theorem extractFrameHeader_accepted {m : FrameFlagMap} {w : List Byte} {t : TagContext}
    (hs : FrameHeaderShape w) (hc : frameSupportCheck t (extractFrameHeader m w) = none) :
    (extractFrameHeader m w).Accepted :=
  ⟨(idChar_iff _).mpr hs.1, (idChar_iff _).mpr hs.2.1, (idChar_iff _).mpr hs.2.2.1,
    (idChar_iff _).mpr hs.2.2.2.1, rfl, ((frameSupportCheck_none_iff _ _).mp hc).2⟩

/-! ### Lists of frames -/

theorem declaredBytes_append (fs gs : List FrameRecord) :
    declaredBytes (fs ++ gs) = declaredBytes fs + declaredBytes gs := by simp [declaredBytes]

theorem frameBytes_append (fs gs : List FrameRecord) :
    frameBytes (fs ++ gs) = frameBytes fs + frameBytes gs := by simp [frameBytes]

/-- Appending an accepted new frame within the bounds keeps the invariants of a tag's frames (44_tag.md R177, R189). -/
theorem framesInv_append {P : Params} {t : TagContext} {fh : FrameHeader} (hi : FramesInv P t.frames)
    (ha : fh.Accepted) (hc : frameSupportCheck t fh = none) (hk : capacityCheck P t fh = none) :
    FramesInv P (t.frames ++ [frameInit fh true]) := by
  obtain ⟨hnew, _⟩ := (frameSupportCheck_none_iff _ _).mp hc
  obtain ⟨hs, hd⟩ := (capacityCheck_none_iff _ _ _).mp hk
  constructor
  · intro f hf
    rcases List.mem_append.mp hf with h | h
    · exact hi.inv f h
    · rw [List.mem_singleton.mp h]; exact frameInit_inv fh true
  · intro f hf
    rcases List.mem_append.mp hf with h | h
    · exact hi.accepted f h
    · rw [List.mem_singleton.mp h]; exact ha
  · intro f hf
    rcases List.mem_append.mp hf with h | h
    · exact hi.parsed f h
    · rw [List.mem_singleton.mp h]; rfl
  · rw [List.map_append, List.nodup_append]
    refine ⟨hi.unique, by simp, ?_⟩
    intro a ha' b hb
    obtain ⟨g, hg, rfl⟩ := List.mem_map.mp ha'
    simp only [List.map_cons, List.map_nil, List.mem_singleton] at hb
    rw [hb]; exact hnew g hg
  · intro n hn; have := hs n hn; simp; omega
  · intro n hn; have := hd n hn
    rw [declaredBytes_append]; simpa [declaredBytes, frameInit] using this

/-- Replacing the last frame by what it becomes on a byte keeps them too (44_tag.md R178). -/
theorem framesInv_taken {P : Params} {fs : List FrameRecord} {f : FrameRecord} {b : Byte}
    (hi : FramesInv P (fs ++ [f])) (hst : f.st = .addingData)
    (hb : f.data = [] → f.fh.type = .text → b = 0x00 ∨ b = 0x01) :
    FramesInv P (fs ++ [frameTaken f b]) := by
  have hmem : f ∈ fs ++ [f] := by simp
  have hfh : (frameTaken f b).fh = f.fh := rfl
  constructor
  · intro g hg
    rcases List.mem_append.mp hg with h | h
    · exact hi.inv g (by simp [h])
    · rw [List.mem_singleton.mp h]; exact frameTaken_inv (hi.inv f hmem) hst hb
  · intro g hg
    rcases List.mem_append.mp hg with h | h
    · exact hi.accepted g (by simp [h])
    · rw [List.mem_singleton.mp h, hfh]; exact hi.accepted f hmem
  · intro g hg
    rcases List.mem_append.mp hg with h | h
    · exact hi.parsed g (by simp [h])
    · rw [List.mem_singleton.mp h]; exact hi.parsed f hmem
  · simpa [hfh] using hi.unique
  · simpa using hi.slots
  · simpa [declaredBytes, hfh] using hi.bytes

/-! ### The state action and the counter -/

/-- The invariants of a context but for the bound on its counter: what holds between the state action and the check
of the counter (44_tag.md R181). -/
structure TagContext.Core (P : Params) (t : TagContext) : Prop where
  hdr      : t.hdr.Supported
  open_    : t.st ≠ .complete
  pend     : t.pend.length < hdrLen
  assembly : t.st ≠ .creatingFrameHeader → t.pend = []
  frames   : FramesInv P t.frames
  idle     : t.st ≠ .addingFrameBytes → ∀ f ∈ t.frames, f.st = .complete
  adding   : t.st = .addingFrameBytes →
    ∃ fs f, t.frames = fs ++ [f] ∧ f.st = .addingData ∧ ∀ g ∈ fs, g.st = .complete
  counted  : t.st ≠ .padding → t.cnt = frameBytes t.frames + t.pend.length
  padded   : frameBytes t.frames + t.pend.length ≤ t.cnt

theorem TagContext.Inv.core {P : Params} {t : TagContext} (h : t.Inv P) : t.Core P :=
  ⟨h.hdr, h.open_, h.pend, h.assembly, h.frames, h.idle, h.adding, h.counted, h.padded⟩

theorem TagContext.Core.inv {P : Params} {t : TagContext} (h : t.Core P)
    (hb : t.hdr.size ≠ 0 → t.cnt < t.hdr.size.toNat) : t.Inv P :=
  ⟨h.hdr, h.open_, h.pend, h.assembly, h.frames, h.idle, h.adding, h.counted, h.padded, hb⟩

/-- A state action writes neither the header nor the counter. -/
theorem stateAction_hdr_cnt {P : Params} {t u : TagContext} {b : Byte} (h : stateAction P t b = .ok u) :
    u.hdr = t.hdr ∧ u.cnt = t.cnt := by
  unfold stateAction at h
  split at h
  · unfold creatingAction at h
    split at h
    · cases h; exact ⟨rfl, rfl⟩
    · simp only at h
      split at h
      · rcases headerComplete_cases P { t with pend := t.pend ++ [b] } (t.pend ++ [b]) with
          ⟨e, he, _⟩ | ⟨fh, _, _, _, _, _, he⟩ <;> rw [he] at h <;> cases h
        exact ⟨rfl, rfl⟩
      · cases h; exact ⟨rfl, rfl⟩
  · unfold addingAction at h
    split at h
    · cases h
    · split at h
      · cases h
      · cases h; exact ⟨rfl, rfl⟩
  · unfold paddingAction at h
    split at h
    · cases h; exact ⟨rfl, rfl⟩
    · cases h
  · cases h

/-- The buffered byte that is not the tenth of a header, and the byte that starts padding, keep the invariants. -/
theorem creatingAction_keeps {P : Params} {t : TagContext} (hi : t.Core P) (hst : t.st = .creatingFrameHeader)
    (b : Byte) :
    (∃ e, creatingAction P t b = .error e ∧ e.Legal) ∨
    (∃ u, creatingAction P t b = .ok u ∧ TagContext.Core P { u with cnt := u.cnt + 1 }) := by
  have hidle : ∀ f ∈ t.frames, f.st = .complete := hi.idle (by simp [hst])
  have hcnt := hi.counted (by simp [hst])
  have hp := hi.pend
  simp only [hdrLen] at hp
  unfold creatingAction hdrLen
  split
  · rename_i hpb
    right
    refine ⟨_, rfl, ⟨hi.hdr, by simp, hi.pend, fun _ => List.length_eq_zero_iff.mp hpb.1, hi.frames,
      fun _ => hidle, by simp, by simp, ?_⟩⟩
    have := hi.padded
    simp only; omega
  · simp only
    split
    · rcases headerComplete_cases P { t with pend := t.pend ++ [b] } (t.pend ++ [b]) with
        ⟨e, he, hl⟩ | ⟨fh, hlen, hs, hfh, hc, hk, he⟩
      · exact .inl ⟨e, he, hl⟩
      · right
        refine ⟨_, he, ?_⟩
        have ha : fh.Accepted := by subst hfh; exact extractFrameHeader_accepted hs hc
        have hf := framesInv_append (t := { t with pend := t.pend ++ [b] }) hi.frames ha hc hk
        have hb10 : frameBytes (t.frames ++ [frameInit fh true]) = frameBytes t.frames + 10 := by
          rw [frameBytes_append]; simp [frameBytes, frameInit, hdrLen]
        have hpl : t.pend.length = 9 := by simpa using hlen
        have hsz : fh.size = 0 ↔ (frameInit fh true).st = .complete := by
          simp only [frameInit]; split <;> simp_all
        refine ⟨hi.hdr, ?_, by simp [appendFrame, hdrLen], fun _ => rfl, hf, ?_, ?_, ?_, ?_⟩
        · simp only [appendFrame, hst]; split <;> simp
        · intro hne f hfm
          have h0 : fh.size = 0 := by
            by_contra hne'; simp [appendFrame] at hne; exact hne' hne.1
          rcases List.mem_append.mp hfm with h | h
          · exact hidle f h
          · rw [List.mem_singleton.mp h]; exact hsz.mp h0
        · intro had
          refine ⟨t.frames, frameInit fh true, rfl, ?_, hidle⟩
          have h0 : fh.size ≠ 0 := by
            intro h0; simp [appendFrame, h0, hst] at had
          simp only [frameInit, if_neg h0]
        · intro _
          simp only [appendFrame, hb10, List.length_nil]
          omega
        · simp only [appendFrame, hb10, List.length_nil]
          omega
    · rename_i h10
      right
      refine ⟨_, rfl, ⟨hi.hdr, hi.open_, ?_, fun h => absurd hst h, hi.frames, hi.idle, hi.adding, ?_, ?_⟩⟩
      · simp only [List.length_append, List.length_cons, List.length_nil, hdrLen] at h10 ⊢; omega
      · intro _; simp; omega
      · simp; omega

/-- A frame byte keeps the invariants, and may fail only on a TEXT frame's selector (44_tag.md R178, R187). -/
theorem addingAction_keeps {P : Params} {t : TagContext} (hi : t.Core P) (hst : t.st = .addingFrameBytes)
    (b : Byte) :
    (∃ e, addingAction t b = .error e ∧ e.Legal) ∨
    (∃ u, addingAction t b = .ok u ∧ TagContext.Core P { u with cnt := u.cnt + 1 }) := by
  obtain ⟨fs, f, hf, hfst, hfs⟩ := hi.adding hst
  have hpend := hi.assembly (by simp [hst])
  have hcnt := hi.counted (by simp [hst])
  unfold addingAction
  rw [hf, List.getLast?_append_cons, List.dropLast_concat]
  simp only [List.getLast?_singleton]
  cases hadd : frameAddByte f b with
  | error e =>
    left
    refine ⟨e, rfl, ?_⟩
    rcases frameAddByte_error hadd with ⟨h, _⟩ | rfl
    · rw [hfst] at h; cases h
    · simp [TagError.Legal, tagErr]
  | ok g =>
    obtain ⟨_, hsel, rfl⟩ := frameAddByte_ok hadd
    right
    refine ⟨_, rfl, ?_⟩
    have hframes : FramesInv P (fs ++ [f]) := hf ▸ hi.frames
    have hbytes : frameBytes (fs ++ [frameTaken f b]) = frameBytes (fs ++ [f]) + 1 := by
      rw [frameBytes_append, frameBytes_append]; simp [frameBytes, frameTaken]; omega
    rw [hf, hpend] at hcnt
    refine ⟨hi.hdr, ?_, hi.pend, fun _ => hpend, framesInv_taken hframes hfst hsel, ?_, ?_, ?_, ?_⟩
    · simp only [hst]; split <;> simp
    · intro hne g hg
      have hc : (frameTaken f b).st = .complete := by
        by_contra hc; simp [hc, hst] at hne
      rcases List.mem_append.mp hg with h | h
      · exact hfs g h
      · rw [List.mem_singleton.mp h]; exact hc
    · intro had
      have hc : (frameTaken f b).st ≠ .complete := by
        intro hc; simp [hc] at had
      refine ⟨fs, _, rfl, ?_, hfs⟩
      cases h : (frameTaken f b).st
      · rfl
      · exact absurd h hc
    · intro _; simp only [hbytes, hpend, List.length_nil] at hcnt ⊢; omega
    · simp only [hbytes, hpend, List.length_nil] at hcnt ⊢; omega

/-- Everything a state action can do to a context that meets its invariants (44_tag.md R172 to R180, R187). -/
theorem stateAction_keeps {P : Params} {t : TagContext} (hi : t.Core P) (b : Byte) :
    (∃ e, stateAction P t b = .error e ∧ e.Legal) ∨
    (∃ u, stateAction P t b = .ok u ∧ TagContext.Core P { u with cnt := u.cnt + 1 }) := by
  unfold stateAction
  cases hst : t.st with
  | creatingFrameHeader => exact creatingAction_keeps hi hst b
  | addingFrameBytes => exact addingAction_keeps hi hst b
  | padding =>
    unfold paddingAction
    simp only
    split
    · right
      refine ⟨t, rfl, ⟨hi.hdr, hi.open_, hi.pend, hi.assembly, hi.frames, hi.idle, hi.adding, ?_, ?_⟩⟩
      · intro h; exact absurd hst h
      · have := hi.padded; simp only; omega
    · exact .inl ⟨_, rfl, by simp [TagError.Legal, tagErr]⟩
  | complete => exact absurd hst hi.open_

/-- The last-frame test of the forced completion (44_tag.md R181). -/
theorem lastFrameIncomplete_concat (t : TagContext) (fs : List FrameRecord) (f : FrameRecord)
    (h : t.frames = fs ++ [f]) : lastFrameIncomplete t = decide (f.st ≠ .complete) := by
  simp [lastFrameIncomplete, h]

theorem lastFrameIncomplete_nil (t : TagContext) (h : t.frames = []) : lastFrameIncomplete t = false := by
  simp [lastFrameIncomplete, h]

/-- Everything the counter step can do (44_tag.md R181). -/
theorem countByte_cases (t : TagContext) :
    (t.cnt + 1 ≠ t.hdr.size.toNat ∧ countByte t = .ok { t with cnt := t.cnt + 1 }) ∨
    (t.cnt + 1 = t.hdr.size.toNat ∧ (∃ fs f, t.frames = fs ++ [f] ∧ f.st ≠ .complete) ∧
      countByte t = .error (tagErr .frameIncompleteAtTagEnd)) ∨
    (t.cnt + 1 = t.hdr.size.toNat ∧ (t.frames = [] ∨ ∃ fs f, t.frames = fs ++ [f] ∧ f.st = .complete) ∧
      countByte t = .ok { t with cnt := t.cnt + 1, st := .complete }) := by
  unfold countByte
  by_cases hc : t.cnt + 1 = t.hdr.size.toNat
  · right
    simp only [if_pos hc]
    rcases List.eq_nil_or_concat t.frames with h | ⟨fs, f, h⟩
    · right
      have hl := lastFrameIncomplete_nil { t with cnt := t.cnt + 1 } h
      exact ⟨hc, .inl h, by simp [hl]⟩
    · rw [List.concat_eq_append] at h
      have hl := lastFrameIncomplete_concat { t with cnt := t.cnt + 1 } fs f h
      by_cases hf : f.st = .complete
      · right; exact ⟨hc, .inr ⟨fs, f, h, hf⟩, by simp [hl, hf]⟩
      · left; exact ⟨hc, ⟨fs, f, h, hf⟩, by simp [hl, hf]⟩
  · left; exact ⟨hc, by simp [hc]⟩

/-- Feeding a byte to a context that meets its invariants: it raises a code the rules allow, or it stays open and
meets them, or it completes with a tag record that may be found (44_tag.md R182, R183, R187). -/
theorem tagFeed_keeps {P : Params} {t : TagContext} (hi : t.Inv P) (b : Byte) :
    (∃ e, tagFeed P t b = .error e ∧ e.Legal) ∨
    (∃ u, tagFeed P t b = .ok u ∧ u.st ≠ .complete ∧ u.Inv P) ∨
    (∃ u, tagFeed P t b = .ok u ∧ u.st = .complete ∧ u.toRecord.Found P) := by
  unfold tagFeed
  rcases stateAction_keeps hi.core b with ⟨e, he, hl⟩ | ⟨u, hu, hcore⟩
  · rw [he]; exact .inl ⟨e, rfl, hl⟩
  · rw [hu]
    obtain ⟨hhdr, hcnt⟩ := stateAction_hdr_cnt hu
    simp only
    rcases countByte_cases u with ⟨hne, e⟩ | ⟨heq, _, e⟩ | ⟨heq, hlast, e⟩ <;> rw [e]
    · right; left
      refine ⟨_, rfl, hcore.open_, hcore.inv ?_⟩
      intro hsz
      have := hi.below (hhdr ▸ hsz)
      simp only
      rw [hhdr] at hne ⊢
      omega
    · exact .inl ⟨_, rfl, by simp [TagError.Legal, tagErr]⟩
    · right; right
      refine ⟨_, rfl, rfl, ⟨hcore.hdr, hcore.frames, ?_, ?_⟩⟩
      · intro f hf
        by_cases hadd : u.st = .addingFrameBytes
        · obtain ⟨fs, g, hg, hgst, hfs⟩ := hcore.adding hadd
          rcases hlast with h | ⟨fs', g', hg', hst'⟩
          · simp only at hg; rw [h] at hg; simp at hg
          · simp only at hg
            rw [hg'] at hg
            have := List.append_inj_right' hg rfl
            simp only [List.cons.injEq, and_true] at this
            rw [this, hgst] at hst'; cases hst'
        · exact hcore.idle hadd f hf
      · have := hcore.padded
        simp only [TagContext.toRecord] at this ⊢
        omega

/-! ### Byte streams of one context -/

/-- A byte stream in two parts (44_tag.md R182). -/
theorem tagFeedAll_append (P : Params) (t : TagContext) (xs ys : List Byte) : tagFeedAll P t (xs ++ ys) =
    match tagFeedAll P t xs with
    | .error e => .error e
    | .ok u => tagFeedAll P u ys := by
  induction xs generalizing t with
  | nil => rfl
  | cons x xs ih =>
    simp only [List.cons_append, tagFeedAll]
    cases tagFeed P t x with
    | error e => rfl
    | ok v => exact ih v

/-- A fed byte that does not make the count the tag's size (44_tag.md R181, R182). -/
theorem tagFeed_of_ok {P : Params} {t u : TagContext} {b : Byte} (h : stateAction P t b = .ok u)
    (hn : u.cnt + 1 ≠ u.hdr.size.toNat) : tagFeed P t b = .ok { u with cnt := u.cnt + 1 } := by
  simp only [tagFeed, h]
  rcases countByte_cases u with ⟨_, e⟩ | ⟨h', _⟩ | ⟨h', _⟩
  · exact e
  · exact absurd h' hn
  · exact absurd h' hn

/-- A fed byte that makes the count the tag's size, the last frame being COMPLETE (44_tag.md R181, R182). -/
theorem tagFeed_of_last {P : Params} {t u : TagContext} {b : Byte} {fs f} (h : stateAction P t b = .ok u)
    (hn : u.cnt + 1 = u.hdr.size.toNat) (hf : u.frames = fs ++ [f]) (hc : f.st = .complete) :
    tagFeed P t b = .ok { u with cnt := u.cnt + 1, st := .complete } := by
  simp only [tagFeed, h]
  rcases countByte_cases u with ⟨h', e⟩ | ⟨_, ⟨fs', f', hf', hne⟩, _⟩ | ⟨_, _, e⟩
  · exact absurd hn h'
  · rw [hf] at hf'
    have := (List.append_inj' hf' rfl).2
    simp at this; rw [← this] at hne; exact absurd hc hne
  · exact e

/-- No state action makes a context COMPLETE: only the counter does (44_tag.md R181, R184). -/
theorem stateAction_open {P : Params} {t u : TagContext} {b : Byte} (h : stateAction P t b = .ok u) :
    u.st ≠ .complete := by
  unfold stateAction at h
  cases hst : t.st with
  | creatingFrameHeader =>
    simp only [hst, creatingAction] at h
    split at h
    · cases h; simp
    · split at h
      · rcases headerComplete_cases P { t with pend := t.pend ++ [b], st := .creatingFrameHeader }
          (t.pend ++ [b]) with ⟨e, he, _⟩ | ⟨fh, _, _, _, _, _, he⟩
        · rw [he] at h; cases h
        · rw [he] at h; cases h; simp only [appendFrame]; split <;> simp
      · cases h; simp
  | addingFrameBytes =>
    simp only [hst, addingAction] at h
    split at h
    · cases h
    · split at h
      · cases h
      · cases h; simp only; split <;> simp
  | padding =>
    simp only [hst, paddingAction] at h
    split at h
    · cases h; simp [hst]
    · cases h
  | complete => simp [hst] at h

end Sys2Proof.Machine
end

