-- ==== Sys2Proof/Laws/Scanner.lean ====
section
/-! SUPPORT. What BYTE_IN does (45_scanner.md R201 to R208): the feed of the open contexts, the header scan, and that
both keep the invariants. -/

namespace Sys2Proof.Machine

/-! ### Step 1 -/

/-- Everything one context's turn in the feed can do (45_scanner.md R203, R204). -/
theorem survivor_outcome_cases (P : Params) (b : Byte) (t : TagContext) :
    (∃ e, tagFeed P t b = .error e ∧ survivor P b t = none ∧ outcome P b t = some (.tagError e)) ∨
    (∃ u, tagFeed P t b = .ok u ∧ u.st = .complete ∧ survivor P b t = none ∧
      outcome P b t = some (.tagFound u.toRecord)) ∨
    (∃ u, tagFeed P t b = .ok u ∧ u.st ≠ .complete ∧ survivor P b t = some u ∧ outcome P b t = none) := by
  unfold survivor outcome
  cases h : tagFeed P t b with
  | error e => exact .inl ⟨e, rfl, rfl, rfl⟩
  | ok u =>
    by_cases hc : u.st = .complete
    · exact .inr (.inl ⟨u, rfl, hc, by simp [hc], by simp [hc, TagContext.toRecord]⟩)
    · exact .inr (.inr ⟨u, rfl, hc, by simp [hc], by simp [hc]⟩)

/-- The feed of step 1: those left keep their order, the events come newest first (45_scanner.md R202 to R204). -/
theorem feedOpen_eq (P : Params) (b : Byte) (ts : List TagContext) :
    feedOpen P b ts = (ts.filterMap (survivor P b), ts.reverse.filterMap (outcome P b)) := by
  induction ts with
  | nil => rfl
  | cons t newer ih =>
    simp only [feedOpen, ih, List.reverse_cons, List.filterMap_append]
    rcases survivor_outcome_cases P b t with ⟨e, h, hs, ho⟩ | ⟨u, h, hc, hs, ho⟩ | ⟨u, h, hc, hs, ho⟩ <;>
      simp only [h]
    · simp [hs, ho, failureEvent]
    · simp [hs, ho, hc]
    · simp [hs, ho, hc]

/-! ### Step 2 -/

/-- Everything step 2 can do, on the block after the insert: nothing, one event, or one new context
(45_scanner.md R206, R207, R208). -/
theorem scanStep_cases (P : Params) (s : Block) :
    (scanStep P s = s ∧ ¬ (s.rbFill = 10 ∧ TagHeaderShape s.rb.toList s.rbStart.val)) ∨
    (s.rbFill = 10 ∧ TagHeaderShape s.rb.toList s.rbStart.val ∧
      ∃ h, h = extractTagHeader (logicalWindow s.rb.toList s.rbStart.val) ∧
        ((∃ c, tagSupportCheck h = some c ∧ scanStep P s = s.emit (.tagError (tagErr c))) ∨
         (tagSupportCheck h = none ∧ boundFull P.tagSlots s.openTags.length = true ∧
           scanStep P s = s.emit (.tagError (capacityErr .tagSlots))) ∨
         (tagSupportCheck h = none ∧ boundFull P.tagSlots s.openTags.length = false ∧
           scanStep P s = { s with openTags := s.openTags ++ [tagInit h] }))) := by
  have hlen : s.rb.toList.length = 10 := Vector.length_toList
  have hst := s.rbStart.isLt
  unfold scanStep
  by_cases hf : s.rbFill = 10
  · rw [if_pos hf]
    rcases tagHeaderCheck_cases s.rb.toList s.rbStart.val with ⟨h, _⟩ | ⟨_, h, e⟩ | ⟨_, _, h, e⟩
    · omega
    · left
      rw [e, if_neg (by simp)]
      exact ⟨rfl, fun hh => h ⟨hlen, hh.2⟩⟩
    · right
      refine ⟨hf, h, _, rfl, ?_⟩
      rw [e, if_pos rfl]
      unfold openTag
      rcases tagHeaderDecode_cases s.rb.toList s.rbStart.val with ⟨h', _⟩ | ⟨_, h', _⟩ | ⟨_, _, _, e'⟩
      · omega
      · exact absurd ⟨hlen, h⟩ h'
      · rw [e']
        simp only
        cases hs : tagSupportCheck (extractTagHeader (logicalWindow s.rb.toList s.rbStart.val)) with
        | some c => exact .inl ⟨c, rfl, rfl⟩
        | none =>
          cases hb : boundFull P.tagSlots s.openTags.length with
          | true => exact .inr (.inl ⟨rfl, rfl, by simp [failureEvent]⟩)
          | false => exact .inr (.inr ⟨rfl, rfl, by simp⟩)
  · rw [if_neg hf]
    exact .inl ⟨rfl, fun h => hf h.1⟩

/-- The support check's codes, in the rule's order (45_scanner.md R207). -/
theorem tagSupportCheck_cases (h : TagHeader) :
    (h.version.toNat ≠ 3 ∧ tagSupportCheck h = some .tagVersionUnsupported) ∨
    (h.version.toNat = 3 ∧ h.unsync = true ∧ tagSupportCheck h = some .unsyncUnsupported) ∨
    (h.version.toNat = 3 ∧ h.unsync = false ∧ h.ext = true ∧ tagSupportCheck h = some .exthdrUnsupported) ∨
    (h.version.toNat = 3 ∧ h.unsync = false ∧ h.ext = false ∧ tagSupportCheck h = none) := by
  have hv : h.version = supportedVersion ↔ h.version.toNat = 3 := byte_eq_iff _ 3 (by omega)
  unfold tagSupportCheck
  by_cases h3 : h.version.toNat = 3
  · rw [if_neg (by simp [hv.mpr h3])]
    cases hu : h.unsync <;> cases he : h.ext <;> simp [h3]
  · left
    rw [if_pos (by rw [ne_eq, hv]; exact h3)]
    exact ⟨h3, rfl⟩

/-! ### The whole transaction -/

/-- The part of the block step 2 leaves alone. -/
theorem scanStep_ring (P : Params) (s : Block) :
    (scanStep P s).rb = s.rb ∧ (scanStep P s).rbWr = s.rbWr ∧ (scanStep P s).rbFill = s.rbFill ∧
      (scanStep P s).rbStart = s.rbStart := by
  rcases scanStep_cases P s with ⟨e, _⟩ | ⟨_, _, h, _, ⟨c, _, e⟩ | ⟨_, _, e⟩ | ⟨_, _, e⟩⟩ <;> rw [e] <;>
    exact ⟨rfl, rfl, rfl, rfl⟩

/-- The buffer after BYTE_IN is the buffer after the insert. -/
theorem byteIn_ring (P : Params) (s : Block) (b : Byte) :
    (byteIn P s b).rb = s.rb.set s.rbWr b ∧ (byteIn P s b).rbWr = s.rbWr + 1 ∧
      (byteIn P s b).rbFill = nextFill s.rbFill ∧
      (byteIn P s b).rbStart = if nextFill s.rbFill = 10 then s.rbWr + 1 else 0 :=
  scanStep_ring P (ringInsert (feedStep P s b) b)

theorem held_congr {s u : Block} (h1 : s.rb = u.rb) (h2 : s.rbFill = u.rbFill) (h3 : s.rbStart = u.rbStart) :
    s.held = u.held := by simp only [Block.held, h1, h2, h3]

theorem byteIn_ringInv {P : Params} {s : Block} (h : s.RingInv) (b : Byte) :
    (byteIn P s b).RingInv ∧ (byteIn P s b).held = lastN 10 (s.held ++ [b]) := by
  obtain ⟨h1, h2, h3, h4⟩ := byteIn_ring P s b
  have hr := ringInsert_ringInv h b
  refine ⟨⟨?_, ?_⟩, ?_⟩
  · rw [h4, h3, h2]
  · rw [h3, h2]; exact hr.fill
  · rw [← ringInsert_held h b]
    exact held_congr h1 h3 h4

/-- A full buffer's window in logical order is the ten bytes held. -/
theorem logicalWindow_held {s : Block} (hf : s.rbFill = 10) :
    logicalWindow s.rb.toList s.rbStart.val = s.held := by
  have hv : s.rbFill.val = 10 := by rw [hf]; rfl
  simp only [logicalWindow, Block.held, hv, hdrLen]
  rfl

/-- The rule table read through the rotation is the rule table on the ten bytes held. -/
theorem tagHeaderShape_held {s : Block} (hf : s.rbFill = 10) :
    TagHeaderShape s.rb.toList s.rbStart.val ↔ TagHeaderShape s.held 0 := by
  rw [← logicalWindow_held hf]
  simp only [TagHeaderShape, Nat.add_zero, Nat.reduceMod]
  rw [byteAt_logicalWindow _ _ _ (by omega), byteAt_logicalWindow _ _ _ (by omega),
    byteAt_logicalWindow _ _ _ (by omega), byteAt_logicalWindow _ _ _ (by omega),
    byteAt_logicalWindow _ _ _ (by omega), byteAt_logicalWindow _ _ _ (by omega),
    byteAt_logicalWindow _ _ _ (by omega), byteAt_logicalWindow _ _ _ (by omega),
    byteAt_logicalWindow _ _ _ (by omega), byteAt_logicalWindow _ _ _ (by omega)]

/-! ### Invariants -/

theorem tagInit_inv {P : Params} {h : TagHeader} (hs : h.Supported) : (tagInit h).Inv P := by
  refine ⟨hs, by simp [tagInit], by simp [tagInit, hdrLen], fun _ => rfl, ?_, ?_, ?_, ?_, ?_, ?_⟩
  · constructor <;> simp [tagInit, declaredBytes]
  · simp [tagInit]
  · simp [tagInit]
  · simp [tagInit, frameBytes]
  · simp [tagInit, frameBytes]
  · intro hne
    have : h.size.toNat ≠ 0 := fun h0 => hne (BitVec.eq_of_toNat_eq h0)
    simp only [tagInit]; omega

theorem tagSupportCheck_none {h : TagHeader} (hc : tagSupportCheck h = none) : h.Supported := by
  rcases tagSupportCheck_cases h with ⟨_, e⟩ | ⟨_, _, e⟩ | ⟨_, _, _, e⟩ | ⟨h3, hu, he, _⟩
  · rw [e] at hc; cases hc
  · rw [e] at hc; cases hc
  · rw [e] at hc; cases hc
  · exact ⟨(byte_eq_iff _ 3 (by omega)).mpr h3, hu, he⟩

theorem tagSupportCheck_legal {P : Params} {h : TagHeader} {c : ErrCode} (hc : tagSupportCheck h = some c) :
    Event.Legal P (.tagError (tagErr c)) := by
  rcases tagSupportCheck_cases h with ⟨_, e⟩ | ⟨_, _, e⟩ | ⟨_, _, _, e⟩ | ⟨_, _, _, e⟩ <;> rw [e] at hc <;>
    cases hc <;> simp [Event.Legal, tagErr]

/-- Step 1 keeps the invariants of the contexts it leaves, and its events are legal. -/
theorem feed_keeps {P : Params} {b : Byte} {ts : List TagContext} (hi : ∀ t ∈ ts, t.Inv P) :
    (∀ u ∈ ts.filterMap (survivor P b), u.Inv P) ∧
      (∀ e ∈ ts.reverse.filterMap (outcome P b), e.Legal P) := by
  constructor
  · intro u hu
    obtain ⟨t, ht, hs⟩ := List.mem_filterMap.mp hu
    rcases survivor_outcome_cases P b t with ⟨_, _, h, _⟩ | ⟨_, _, _, h, _⟩ | ⟨v, hf, hc, h, _⟩ <;>
      rw [h] at hs <;> cases hs
    rcases tagFeed_keeps (hi t ht) b with ⟨e, h', _⟩ | ⟨w, h', _, hw⟩ | ⟨w, h', hw, _⟩
    · rw [hf] at h'; cases h'
    · rw [hf] at h'; cases h'; exact hw
    · rw [hf] at h'; cases h'; exact absurd hw hc
  · intro e he
    obtain ⟨t, ht, ho⟩ := List.mem_filterMap.mp he
    have hti := hi t (List.mem_reverse.mp ht)
    rcases survivor_outcome_cases P b t with ⟨e', hf, _, h⟩ | ⟨v, hf, hc, _, h⟩ | ⟨_, _, _, _, h⟩ <;>
      rw [h] at ho <;> cases ho
    · rcases tagFeed_keeps hti b with ⟨e1, h', hl⟩ | ⟨w, h', _, _⟩ | ⟨w, h', _, _⟩ <;> rw [hf] at h' <;> cases h'
      exact hl
    · rcases tagFeed_keeps hti b with ⟨e1, h', _⟩ | ⟨w, h', hw, _⟩ | ⟨w, h', _, hw⟩ <;> rw [hf] at h' <;> cases h'
      · exact absurd hc hw
      · exact hw

/-- BYTE_IN keeps the invariants of the block, and its events are legal (10_state.md R24; 60_exceptions.md R226). -/
theorem byteIn_keeps {P : Params} {s : Block} (hi : s.Inv P) (b : Byte) :
    (byteIn P s b).Inv P ∧ ∀ e ∈ (byteIn P s b).events, e.Legal P := by
  obtain ⟨hring, _⟩ := byteIn_ringInv (P := P) hi.ring b
  obtain ⟨hts, hes⟩ := feed_keeps (b := b) hi.tags
  have hr : ∀ n, P.tagSlots = .atMost n → (s.openTags.filterMap (survivor P b)).length ≤ n :=
    fun n hn => le_trans (List.length_filterMap_le _ _) (hi.slots n hn)
  have ho : (ringInsert (feedStep P s b) b).openTags = s.openTags.filterMap (survivor P b) := by
    simp [feedOpen_eq]
  have hev : (ringInsert (feedStep P s b) b).events = s.openTags.reverse.filterMap (outcome P b) := by
    simp [feedOpen_eq]
  have key : (∀ t ∈ (byteIn P s b).openTags, t.Inv P) ∧
      (∀ n, P.tagSlots = .atMost n → (byteIn P s b).openTags.length ≤ n) ∧
      ∀ e ∈ (byteIn P s b).events, e.Legal P := by
    unfold byteIn
    rcases scanStep_cases P (ringInsert (feedStep P s b) b) with
      ⟨e, _⟩ | ⟨_, _, h, _, ⟨c, hc, e⟩ | ⟨_, _, e⟩ | ⟨hc, hb, e⟩⟩ <;> rw [e]
    · rw [ho, hev]; exact ⟨hts, hr, hes⟩
    · rw [emit_openTags, emit_events, ho, hev]
      refine ⟨hts, hr, ?_⟩
      intro e he
      rcases List.mem_append.mp he with he | he
      · exact hes e he
      · rw [List.mem_singleton.mp he]; exact tagSupportCheck_legal hc
    · rw [emit_openTags, emit_events, ho, hev]
      refine ⟨hts, hr, ?_⟩
      intro e he
      rcases List.mem_append.mp he with he | he
      · exact hes e he
      · rw [List.mem_singleton.mp he]; simp [Event.Legal, capacityErr]
    · simp only
      rw [hev, ho]
      refine ⟨?_, ?_, hes⟩
      · intro t ht
        rcases List.mem_append.mp ht with ht | ht
        · exact hts t ht
        · rw [List.mem_singleton.mp ht]; exact tagInit_inv (tagSupportCheck_none hc)
      · intro n hn
        have := (boundFull_false_iff _ _).mp hb n hn
        rw [ho] at this
        simp; omega
  exact ⟨⟨hring, key.1, key.2.1⟩, key.2.2⟩

end Sys2Proof.Machine
end

