-- ==== Sys2Proof/Machine/Assembler.lean ====
section
/-! DEFINITION. The textual syntax of transactions, one line each (30_encoding.md R81, R82). A `<rec>` or `<frec>`
operand is a name the caller binds to a record, since the spec gives records no text (log entry 20). No step uses it. -/

namespace Sys2Proof.Machine

/-- A token of a line: a word, a quoted string as its ASCII bytes, or a comma. -/
inductive Token where
  | word (cs : List Char)
  | quoted (bs : List Byte)
  | comma
deriving DecidableEq, Repr

/-- The pending word, if any, as a token. -/
def flushWord (acc : List Char) (out : List Token) : List Token :=
  if acc = [] then out else out ++ [.word acc]

/-- The byte of a character in a quoted string: its ASCII code. R81 has "a quoted ASCII string" and says nothing of any
other character: DESIGN CHOICE (log entry 20), one beyond code 127 has no byte, and a line that quotes it is no line of
the syntax. -/
def asciiByte (c : Char) : Option Byte := if c.toNat < 128 then some (BitVec.ofNat 8 c.toNat) else none

/-- Split a line into tokens: the characters still to come, the word being read, the bytes of the quoted string being
read, the tokens so far. None when a quote is left open or a quoted character is not ASCII. That a quote mark always
ends its string, with no way to write one inside, and that a space, a comma or a quote mark ends a word, are DESIGN CHOICE
(log entry 20): R81 does not say whether a separator must stand before or after a quoted string, and none need, so
`FEED 13"TI"` is the line `FEED 13 "TI"`. -/
def tokens : List Char → List Char → Option (List Byte) → List Token → Option (List Token)
  | [], acc, none, out => some (flushWord acc out)
  | [], _, some _, _ => none
  | c :: cs, acc, some bs, out =>
    if c = '"' then tokens cs acc none (out ++ [.quoted bs])
    else
      match asciiByte c with
      | some x => tokens cs acc (some (bs ++ [x])) out
      | none => none
  | c :: cs, acc, none, out =>
    if c = ' ' then tokens cs [] none (flushWord acc out)
    else if c = ',' then tokens cs [] none (flushWord acc out ++ [.comma])
    else if c = '"' then tokens cs [] (some []) (flushWord acc out)
    else tokens cs (acc ++ [c]) none out

/-- The value of a digit: its place in the list of the digits of the base, from 0. -/
def digitIn (digits : String) (c : Char) : Option Nat := digits.toList.findIdx? fun d => d == c

/-- A four-bit hexadecimal digit, its letter of either case (30_encoding.md R81; the case is log entry 20). -/
def nibble (c : Char) : Option (BitVec 4) :=
  match digitIn "0123456789ABCDEF" c, digitIn "0123456789abcdef" c with
  | some n, _ => some (BitVec.ofNat 4 n)
  | none, some n => some (BitVec.ofNat 4 n)
  | none, none => none

/-- The bytes of one operand: "two hex digits", the high one first, or a quoted string (30_encoding.md R81). -/
def operandBytes : Token → Option (List Byte)
  | .word [hi, lo] =>
    match nibble hi, nibble lo with
    | some x, some y => some [x ++ y]
    | _, _ => none
  | .word _ => none
  | .quoted bs => some bs
  | .comma => none

/-- The bytes of all operands, in order. -/
def byteOperands : List Token → Option (List Byte)
  | [] => some []
  | k :: ks =>
    match operandBytes k, byteOperands ks with
    | some xs, some ys => some (xs ++ ys)
    | _, _ => none

/-- Exactly n command bytes: "omitted command bytes are 00" (30_encoding.md R81); more than n are no line of the syntax. -/
def byteOperandsOf (n : Nat) (ks : List Token) : Option (List Byte) :=
  match byteOperands ks with
  | some bs => if bs.length ≤ n then some (bs ++ List.replicate (n - bs.length) 0) else none
  | none => none

/-- The decimal value of `<0..15>` (30_encoding.md R81). -/
def startValue : List Char → Option (BitVec 4)
  | [d] => (digitIn "0123456789" d).map (BitVec.ofNat 4)
  | ['1', d] => (digitIn "012345" d).map fun n => BitVec.ofNat 4 (10 + n)
  | _ => none

/-- The `start=` operand and the operands after it: "omitted `start=` means `start=0`" (30_encoding.md R81). -/
def startOperand : List Token → Option (BitVec 4 × List Token)
  | .word ('s' :: 't' :: 'a' :: 'r' :: 't' :: '=' :: ds) :: ks =>
    match startValue ds with
    | some v => some (v, ks)
    | none => none
  | ks => some (0, ks)

/-- The mnemonics that have a textual form (30_encoding.md R81). -/
def mnemonicOp (m : List Char) : Option Op :=
  if m = "BYTE_IN".toList then some .byteIn
  else if m = "DECODE_INT".toList then some .decodeInt
  else if m = "DECODE_SYNCSAFE".toList then some .decodeSyncsafe
  else if m = "TAG_HDR_CHECK".toList then some .tagHdrCheck
  else if m = "FRAME_HDR_CHECK".toList then some .frameHdrCheck
  else if m = "TAG_HDR_DECODE".toList then some .tagHdrDecode
  else if m = "FRAME_HDR_DECODE".toList then some .frameHdrDecode
  else if m = "DEFAULT_FRAME".toList then some .defaultFrame
  else if m = "FRAME_LOOKUP".toList then some .frameLookup
  else if m = "TEXT_PAYLOAD".toList then some .textPayload
  else if m = "READ_STATUS".toList then some .readStatus
  else if m = "RESET".toList then some .reset
  else none

/-- A frame identifier operand from four bytes (30_encoding.md R72). -/
def idOf (bs : List Byte) : FrameId :=
  { c0 := byteAt bs 0, c1 := byteAt bs 1, c2 := byteAt bs 2, c3 := byteAt bs 3 }

/-- The command of a mnemonic whose operands are all in the command word (30_encoding.md R81). -/
def assembleCommand : Op → List Token → Option Instr
  | .byteIn, ks => (byteOperandsOf 1 ks).map fun bs => .byteIn (byteAt bs 0)
  | .decodeInt, ks =>
    (byteOperandsOf 4 ks).map fun bs => .decodeInt (byteAt bs 0) (byteAt bs 1) (byteAt bs 2) (byteAt bs 3)
  | .decodeSyncsafe, ks =>
    (byteOperandsOf 4 ks).map fun bs =>
      .decodeSyncsafe (byteAt bs 0) (byteAt bs 1) (byteAt bs 2) (byteAt bs 3)
  | .tagHdrCheck, ks =>
    match startOperand ks with
    | some (v, rest) => (byteOperandsOf 10 rest).map fun bs => .tagHdrCheck v bs
    | none => none
  | .frameHdrCheck, ks => (byteOperandsOf 10 ks).map fun bs => .frameHdrCheck bs
  | .tagHdrDecode, ks =>
    match startOperand ks with
    | some (v, rest) => (byteOperandsOf 10 rest).map fun bs => .tagHdrDecode v bs
    | none => none
  | .frameHdrDecode, ks => (byteOperandsOf 10 ks).map fun bs => .frameHdrDecode bs
  | .defaultFrame, ks => (byteOperandsOf 4 ks).map fun bs => .defaultFrame (idOf bs)
  | .readStatus, [] => some .readStatus
  | .reset, [] => some .reset
  | _, _ => none

/-- One line of text as the inputs the host presents; `recs` and `frecs` bind the names a `<rec>` or `<frec>` operand
may use (30_encoding.md R81, R82). -/
def assembleLine (recs : List (String × TagRecord)) (frecs : List (String × FrameRecord))
    (line : List Char) : Option (List HostInput) :=
  match tokens line [] none [] with
  | some (.word m :: ks) =>
    if m = "FEED".toList then (byteOperands ks).map feed
    else
      match mnemonicOp m, ks with
      | some .frameLookup, .word r :: .comma :: rest =>
        match recs.find? fun e => decide (e.1.toList = r), byteOperandsOf 4 rest with
        | some e, some bs => some [.command (encode (.frameLookup (idOf bs))) e.2 FrameRecord.idle]
        | _, _ => none
      | some .textPayload, [.word r] =>
        match frecs.find? fun e => decide (e.1.toList = r) with
        | some e => some [.command (encode .textPayload) TagRecord.idle e.2]
        | none => none
      | some op, ks => (assembleCommand op ks).map fun i => [plainInput i]
      | none, _ => none
  | _ => none

end Sys2Proof.Machine
end

