-- ==== Sys2Proof/Tests/Slice0.lean ====
section
/-! SUPPORT. The model's own tests: ill-formed terms that the checks refuse, words written out from 30_encoding.md R72
and R75, one-step vectors of 95_test_vectors.md (named beside each), and for every statement with hypotheses a concrete
case that meets them. -/

namespace Sys2Proof.Tests
open Sys2Proof Sys2Proof.Machine

/-! ### Helpers -/

/-- The state an outcome carries, if it is a next state. -/
def next? (o : Host.Outcome State Fault Refusal) : Option State :=
  match o with
  | .next t => some t
  | .fault _ => none
  | .refused _ => none

/-- The response of a command at a state. -/
def respOf (i : Instr) (s : State) : Option Response := (next? (exec i s)).map State.resp

/-- The events of a command at a state. -/
def eventsOf (i : Instr) (s : State) : Option (List Event) := (next? (exec i s)).map State.evtOut

/-- A response of this status and nothing else. -/
def only (st : Status) : Response := { Response.okay with status := st }

/-- A state with this block. -/
def withBlock (b : Block) : State := { State.reset with blk := b }

/-- A block that holds these ten bytes as slots 0..9, all of them filled, the next write at slot 0. -/
def fullRing (w : Vector Byte 10) (open_ : List TagContext) : Block :=
  { rb := w, rbWr := 0, rbFill := 10, rbStart := 0, openTags := open_, events := [] }

/-- A block that holds nine bytes, slots 0..8. -/
def nineBytes (w : Vector Byte 10) : Block :=
  { rb := w, rbWr := 9, rbFill := 9, rbStart := 0, openTags := [], events := [] }

/-- `HDR(19)` of 95_test_vectors.md. -/
def hdr19 : TagHeader :=
  { version := 3, unsync := false, ext := false, exp := false, footer := false, size := 19 }

/-- A tag header of version 3 with no flag set. -/
def hdrOf (n : BitVec 28) : TagHeader := { hdr19 with size := n }

def idTit2 : FrameId := ⟨0x54, 0x49, 0x54, 0x32⟩
def idMcdi : FrameId := ⟨0x4D, 0x43, 0x44, 0x49⟩

/-- A frame header with no flag set. -/
def fhOf (id : FrameId) (n : Word32) (ty : FrameType) : FrameHeader :=
  { id := id, size := n, tap := false, fap := false, ro := false, comp := false, encr := false, grp := false,
    type := ty }

/-- The TIT2 frame of program P1 after its first eight bytes. -/
def p1Partial : FrameRecord :=
  { fh := fhOf idTit2 9 .text, data := [0x01, 0xFF, 0xFE, 0x45, 0x00, 0x4E, 0x00, 0x00], st := .addingData,
    inSrc := true, enc := .utf16 }

/-- The TIT2 frame of program P1. -/
def p1Frame : FrameRecord :=
  { p1Partial with data := [0x01, 0xFF, 0xFE, 0x45, 0x00, 0x4E, 0x00, 0x00, 0x00], st := .complete }

/-- The context of program P1 before its last byte. -/
def p1Context : TagContext :=
  { hdr := hdr19, st := .addingFrameBytes, cnt := 18, pend := [], frames := [p1Partial] }

/-- A context in CREATING_FRAME_HEADER. -/
def creating (n : BitVec 28) (cnt : Nat) (pend : List Byte) (fs : List FrameRecord) : TagContext :=
  { hdr := hdrOf n, st := .creatingFrameHeader, cnt := cnt, pend := pend, frames := fs }

/-- A context in PADDING. -/
def padding (n : BitVec 28) (cnt : Nat) : TagContext :=
  { hdr := hdrOf n, st := .padding, cnt := cnt, pend := [], frames := [] }

/-- A complete OTHER frame of no bytes. -/
def emptyFrame (id : FrameId) : FrameRecord :=
  { fh := fhOf id 0 .other, data := [], st := .complete, inSrc := true, enc := .none }

/-- The window of source example L1-3. -/
def l13 : List Byte := [0x49, 0x44, 0x33, 0x04, 0x00, 0xF0, 0x00, 0x00, 0x01, 0x7F]

/-- L1-5: L1-3's header at physical offset 6. -/
def l15 : List Byte := [0x00, 0xF0, 0x00, 0x00, 0x01, 0x7F, 0x49, 0x44, 0x33, 0x04]

/-- The frame header of P1. -/
def tit2Window : List Byte := [0x54, 0x49, 0x54, 0x32, 0x00, 0x00, 0x00, 0x09, 0x00, 0x00]

/-- The header of an OTHER frame of one byte with every free flag bit set. -/
def allFlags : List Byte := [0x4D, 0x43, 0x44, 0x49, 0x00, 0x00, 0x00, 0x01, 0xE0, 0xE0]

/-! ### Well-formedness -/

/-- A window of nine bytes is refused, in each of the four operations. -/
theorem test_wf_refuses_short_tag_check : (Instr.tagHdrCheck 0 (l13.take 9)).wf = false := by decide
theorem test_wf_refuses_short_frame_check : (Instr.frameHdrCheck (tit2Window.take 9)).wf = false := by decide
theorem test_wf_refuses_long_tag_decode : (Instr.tagHdrDecode 0 (l13 ++ [0x00])).wf = false := by decide
theorem test_wf_refuses_empty_frame_decode : (Instr.frameHdrDecode []).wf = false := by decide
theorem test_wf_accepts_ten_bytes : (Instr.tagHdrCheck 15 l13).wf = true := by decide

theorem test_params_refuse_no_tag_slot : { defaultParams with tagSlots := .atMost 0 }.wf = false := by decide
theorem test_params_refuse_no_frame_slot : { defaultParams with frameSlots := .atMost 0 }.wf = false := by decide
theorem test_params_refuse_shared_flag_place :
    { defaultParams with flagMap := { id3v23FlagMap with grp := .pos8bit7 } }.wf = false := by decide
theorem test_params_accept_default : defaultParams.wf = true := by decide

/-! ### Decoding: words written out from 30_encoding.md R72 and R75 -/

theorem test_decode_reserved0 : decode 0x000000000000000000000000#96 = .reserved0 := by decide
theorem test_decode_byteIn : decode 0x0000000000000000004E0001#96 = .byteIn 0x4E := by decide
theorem test_decode_byteIn_ignores_rest : decode 0xFFFFFFFFFFFFFFFFFF4EFFF1#96 = .byteIn 0x4E := by decide
/-- 95_test_vectors.md 2.1: non-zero `rsv` and `start` change nothing. -/
theorem test_decode_decodeInt : decode 0x0000000000007F01000012F2#96 = .decodeInt 0x00 0x00 0x01 0x7F := by decide
/-- 95_test_vectors.md P5 row 2. -/
theorem test_decode_decodeSyncsafe :
    decode 0x000000000000033344490003#96 = .decodeSyncsafe 0x49 0x44 0x33 0x03 := by decide
/-- 95_test_vectors.md L1-3. -/
theorem test_decode_tagHdrCheck : decode 0x7F010000F000043344490004#96 = .tagHdrCheck 0 l13 := by decide
/-- 95_test_vectors.md 2.2. -/
theorem test_decode_frameHdrCheck : decode 0x000009000000325449540005#96 = .frameHdrCheck tit2Window := by decide
/-- 95_test_vectors.md L1-5. -/
theorem test_decode_tagHdrDecode : decode 0x043344497F010000F00000A6#96 = .tagHdrDecode 10 l15 := by decide
/-- 95_test_vectors.md 2.2. -/
theorem test_decode_frameHdrDecode : decode 0x000009000000325449540007#96 = .frameHdrDecode tit2Window := by decide
/-- 95_test_vectors.md L1-8. -/
theorem test_decode_defaultFrame : decode 0x0000000000004944434D0008#96 = .defaultFrame idMcdi := by decide
theorem test_decode_frameLookup : decode 0x000000000000325449540009#96 = .frameLookup idTit2 := by decide
theorem test_decode_textPayload : decode 0x00000000000000000000000A#96 = .textPayload := by decide
theorem test_decode_readStatus : decode 0x00000000000000000000000B#96 = .readStatus := by decide
theorem test_decode_reservedC : decode 0x00000000000000000000000C#96 = .reservedC := by decide
theorem test_decode_reservedD : decode 0x00000000000000000000000D#96 = .reservedD := by decide
theorem test_decode_reservedE : decode 0x00000000000000000000000E#96 = .reservedE := by decide
theorem test_decode_reset : decode 0x00000000000000000000000F#96 = .reset := by decide
theorem test_decode_refuses_longer_word : decodeBits 97 0 = .error (.longerThanCommandWord 97) := by decide
theorem test_encode_byteIn : encode (.byteIn 0x13) = 0x000000000000000000130001#96 := by decide
theorem test_encode_tagHdrCheck : encode (.tagHdrCheck 6 l15) = 0x043344497F010000F0000064#96 := by decide
theorem test_decodeTableWord_selector_alone : decodeTableWord 8 0x0B = some .readStatus := by decide

/-! ### Field decoders and validators -/

/-- 95_test_vectors.md 2.1. -/
theorem test_decodeInt : respOf (.decodeInt 0x12 0x34 0x56 0x78) State.reset =
    some { Response.okay with value := 0x12345678 } := by decide
theorem test_decodeSyncsafe : respOf (.decodeSyncsafe 0x12 0x34 0x56 0x78) State.reset =
    some { Response.okay with value := 0x024D2B78 } := by decide
theorem test_decodeSyncsafe_masks_bit7 : respOf (.decodeSyncsafe 0xFF 0xFF 0xFF 0xFF) State.reset =
    some { Response.okay with value := 0x0FFFFFFF } := by decide
/-- L1-2: n = 154212739. -/
theorem test_syncsafeEncode : syncsafeEncode 154212739 = [0x49, 0x44, 0x33, 0x03] := by decide

/-- L1-5. -/
theorem test_tagHdrCheck_rotated : respOf (.tagHdrCheck 6 l15) State.reset =
    some { Response.okay with flag := true } := by decide
theorem test_tagHdrCheck_addr : respOf (.tagHdrCheck 10 l15) State.reset = some (only .addrError) := by decide
/-- 95_test_vectors.md 2.2. -/
theorem test_frameHdrCheck_accepts :
    respOf (.frameHdrCheck [0x4D, 0x43, 0x44, 0x30, 0xFF, 0xFF, 0xFF, 0xFF, 0xE0, 0xE0]) State.reset =
      some { Response.okay with flag := true } := by decide
theorem test_frameHdrCheck_rejects :
    respOf (.frameHdrCheck [0x5B, 0x41, 0x42, 0x43, 0x00, 0x00, 0x00, 0x01, 0x00, 0x00]) State.reset =
      some Response.okay := by decide
/-- 95_test_vectors.md 2.3. -/
theorem test_tagHdrDecode : respOf (.tagHdrDecode 6 l15) State.reset =
    some { Response.okay with
      hdr := some { version := 4, unsync := true, ext := true, exp := true, footer := true, size := 255 } } := by
  decide
theorem test_tagHdrDecode_invalid :
    respOf (.tagHdrDecode 0 [0x49, 0x44, 0x33, 0x03, 0x00, 0x00, 0x00, 0x00, 0x80, 0x00]) State.reset =
      some (only .notValidHeader) := by decide
/-- 95_test_vectors.md 2.2: tap alone, plain size. -/
theorem test_frameHdrDecode :
    respOf (.frameHdrDecode [0x4D, 0x43, 0x44, 0x49, 0x00, 0x00, 0x01, 0x00, 0x80, 0x00]) State.reset =
      some { Response.okay with fh := some { fhOf idMcdi 256 .other with tap := true } } := by decide
/-- 42_header_decode.md R134: with `comp` and `tap` exchanged in FRAME_FLAG_MAP, the same window has `comp` alone. -/
theorem test_frameHdrDecode_other_map :
    respOf (.frameHdrDecode [0x4D, 0x43, 0x44, 0x49, 0x00, 0x00, 0x01, 0x00, 0x80, 0x00])
        { State.reset with cfg := { defaultParams with
          flagMap := { id3v23FlagMap with tap := .pos9bit7, comp := .pos8bit7 } } } =
      some { Response.okay with fh := some { fhOf idMcdi 256 .other with comp := true } } := by decide
theorem test_frameHdrDecode_invalid :
    respOf (.frameHdrDecode [0x54, 0x49, 0x54, 0x32, 0x00, 0x00, 0x00, 0x09, 0x01, 0x00]) State.reset =
      some (only .notValidHeader) := by decide

/-! ### Frames -/

/-- 95_test_vectors.md 2.4: the identifier is not validated. -/
theorem test_defaultFrame_text : (respOf (.defaultFrame ⟨0x54, 0x00, 0x00, 0x00⟩) State.reset).map (·.frame) =
    some (some { fh := fhOf ⟨0x54, 0x00, 0x00, 0x00⟩ 5 .text, data := [0x01, 0xFF, 0xFE, 0x00, 0x00],
                 st := .complete, inSrc := false, enc := .utf16 }) := by decide
/-- 95_test_vectors.md 2.4: "tit2" is no TEXT identifier. -/
theorem test_defaultFrame_other : (respOf (.defaultFrame ⟨0x74, 0x69, 0x74, 0x32⟩) State.reset).map (·.frame) =
    some (some { fh := fhOf ⟨0x74, 0x69, 0x74, 0x32⟩ 0 .other, data := [], st := .complete, inSrc := false,
                 enc := .none }) := by decide
theorem test_frameLookup_found :
    respOf (.frameLookup idTit2) { State.reset with recIn := ⟨hdr19, [emptyFrame idMcdi, p1Frame]⟩ } =
      some { Response.okay with frame := some p1Frame } := by decide
theorem test_frameLookup_default :
    respOf (.frameLookup idTit2) { State.reset with recIn := ⟨hdr19, [emptyFrame idMcdi]⟩ } =
      respOf (.defaultFrame idTit2) State.reset := by decide
/-- 95_test_vectors.md 2.4: P1's frame. -/
theorem test_textPayload : respOf .textPayload { State.reset with frecIn := p1Frame } =
    some { Response.okay with
      text := some (.utf16, [0xFF, 0xFE, 0x45, 0x00, 0x4E, 0x00, 0x00, 0x00]) } := by decide
/-- 95_test_vectors.md 2.4: the type is checked first. -/
theorem test_textPayload_type_first : respOf .textPayload
    { State.reset with frecIn := { emptyFrame idMcdi with st := .addingData } } = some (only .notText) := by decide
/-- 43_frame.md R159: the host-side accessor hands the pair of P1's frame to the codec. -/
theorem test_textAccessor : (textAccessor (fun e bs => (e, bs.length)) ⟨hdr19, [p1Frame]⟩ idTit2).toOption =
    some (.utf16, 8) := by decide

/-! ### The scanner -/

/-- S-15: the tenth byte of P1 opens a context; READ_STATUS then answers 0x0000010A. -/
theorem test_byteIn_opens : ((next? (exec (.byteIn 0x13)
      (withBlock (nineBytes #v[0x49, 0x44, 0x33, 0x03, 0, 0, 0, 0, 0, 0])))).bind (respOf .readStatus)) =
    some { Response.okay with value := 0x0000010A } := by decide
/-- P1: the last byte completes the frame and the tag. -/
theorem test_byteIn_finds : eventsOf (.byteIn 0x00) (withBlock (fullRing (Vector.replicate 10 0) [p1Context])) =
    some [.tagFound { hdr := hdr19, frames := [p1Frame] }] := by decide
/-- S-14: fill 9, start 0, none open. -/
theorem test_readStatus : respOf .readStatus (withBlock (nineBytes (Vector.replicate 10 0))) =
    some { Response.okay with value := 0x00000009 } := by decide
/-- 10_state.md R32: open count in bits 31..8, start in bits 7..4. -/
theorem test_readStatus_fields : respOf .readStatus
    (withBlock { fullRing (Vector.replicate 10 0) [padding 9 3, p1Context] with rbWr := 6, rbStart := 6 }) =
      some { Response.okay with value := 0x0000026A } := by decide
/-- S-16: RESET in mid-tag, no event, everything as after reset. -/
theorem test_reset : next? (exec .reset (withBlock (fullRing (Vector.replicate 10 0x49) [p1Context]))) =
    some State.reset := by decide
/-- S-18. -/
theorem test_reserved0 : next? (exec .reserved0 (withBlock (fullRing (Vector.replicate 10 0) [p1Context]))) =
    some { withBlock (fullRing (Vector.replicate 10 0) [p1Context]) with resp := only .illegalOp } := by decide
theorem test_reservedC : respOf .reservedC State.reset = some (only .illegalOp) := by decide
theorem test_reservedD : respOf .reservedD State.reset = some (only .illegalOp) := by decide
theorem test_reservedE : respOf .reservedE State.reset = some (only .illegalOp) := by decide

/-- S-1: unsynchronisation, and nothing opens. -/
theorem test_scan_rejects_unsync : tagSupportCheck { hdr19 with unsync := true, ext := true } =
    some .unsyncUnsupported := by decide
/-- S-8: a full TAG_SLOTS. -/
theorem test_openTag_slots : (openTag { defaultParams with tagSlots := .atMost 1 }
    (fullRing #v[0x49, 0x44, 0x33, 0x03, 0, 0, 0, 0, 0, 0] [padding 154212739 6])).events =
      [.tagError { code := .capacity, cap := .tagSlots }] := by decide
/-- S-12: the newer context's event comes first. -/
theorem test_feed_newest_first : (feedOpen defaultParams 0x55 [padding 30 5, padding 20 1]).2.length = 2 ∧
    (feedOpen defaultParams 0x00 [padding 9 8, padding 4 3]).2 =
      [.tagFound { hdr := hdrOf 4, frames := [] }, .tagFound { hdr := hdrOf 9, frames := [] }] := by decide

/-! ### Steps -/

theorem test_step_runs_word : (next? (step (State.reset.withFetchWord 96 0x0000000000007F0100000002))).map
    (·.resp.value) = some 383 := by decide
theorem test_step_reset_pin : next? (step { withBlock (nineBytes (Vector.replicate 10 0x49)) with
    input := [.resetPin] }) = some State.reset := by decide
theorem test_step_idle : next? (step State.reset) = some State.reset := by decide
/-- Two bytes give the events of both steps (30_encoding.md R82; S-12 with the second byte's tag longer). -/
theorem test_feed_events : (eventsOfSteps 2 { withBlock (fullRing (Vector.replicate 10 0) [padding 9 7, padding 4 3])
    with input := feed [0x00, 0x00] }) =
      [.tagFound { hdr := hdrOf 4, frames := [] }, .tagFound { hdr := hdrOf 9, frames := [] }] := by decide

/-! ### Textual syntax -/

/-- P5 row 4. -/
theorem test_assemble_start : assembleLine [] []
    ['T', 'A', 'G', '_', 'H', 'D', 'R', '_', 'C', 'H', 'E', 'C', 'K', ' ', 's', 't', 'a', 'r', 't', '=', '7', ' ',
     '0', '3'] = some [plainInput (.tagHdrCheck 7 [0x03, 0, 0, 0, 0, 0, 0, 0, 0, 0])] := by decide
/-- 30_encoding.md R82: bytes and quoted strings mixed. -/
theorem test_assemble_feed : assembleLine [] [] ['F', 'E', 'E', 'D', ' ', '1', '3', ' ', '"', 'T', 'I', '"'] =
    some (feed [0x13, 0x54, 0x49]) := by decide
/-- 30_encoding.md R81: the highest `start=`, and hex digits that are letters. -/
theorem test_assemble_start_fifteen : assembleLine [] []
    ['T', 'A', 'G', '_', 'H', 'D', 'R', '_', 'D', 'E', 'C', 'O', 'D', 'E', ' ', 's', 't', 'a', 'r', 't', '=', '1', '5',
     ' ', 'F', 'a'] = some [plainInput (.tagHdrDecode 15 [0xFA, 0, 0, 0, 0, 0, 0, 0, 0, 0])] := by decide
/-- 30_encoding.md R81 quotes ASCII alone. -/
theorem test_assemble_refuses_beyond_ascii : assembleLine [] [] ['F', 'E', 'E', 'D', ' ', '"', 'é', '"'] = none := by
  decide
theorem test_assemble_lookup : assembleLine [("r", TagRecord.idle)] []
    ['F', 'R', 'A', 'M', 'E', '_', 'L', 'O', 'O', 'K', 'U', 'P', ' ', 'r', ',', ' ', '"', 'T', 'I', 'T', '2', '"'] =
      some [plainInput (.frameLookup idTit2)] := by decide

/-! ### Witnesses: each statement's hypotheses are met, clause by clause -/

theorem witness_DecodeOfEncodeIsTheCommand : (Instr.tagHdrDecode 15 l13).wf = true := by decide

/-- The hypotheses of `Obligations.DecodeReadsOnlyNamedFields`. -/
abbrev NamedFieldsAgree (c d : Cmd) : Prop :=
  (∀ k, k < 4 → c.getLsbD k = d.getLsbD k) ∧
  ((decode c).op = .tagHdrCheck ∨ (decode c).op = .tagHdrDecode →
    ∀ k, 4 ≤ k → k < 8 → c.getLsbD k = d.getLsbD k) ∧
  ((decode c).op = .byteIn → ∀ k, 16 ≤ k → k < 24 → c.getLsbD k = d.getLsbD k) ∧
  ((decode c).op ∈ [Op.decodeInt, .decodeSyncsafe, .defaultFrame, .frameLookup] →
    ∀ k, 16 ≤ k → k < 48 → c.getLsbD k = d.getLsbD k) ∧
  ((decode c).op ∈ [Op.tagHdrCheck, .frameHdrCheck, .tagHdrDecode, .frameHdrDecode] →
    ∀ k, 16 ≤ k → k < 96 → c.getLsbD k = d.getLsbD k)

/-- Different words that name the same fields: BYTE_IN, a 4-byte operand, a window, RESET. -/
theorem witness_DecodeReadsOnlyNamedFields :
    NamedFieldsAgree 0x0000000000000000004E0001 0xFFFFFFFFFFFFFFFFFF4EFFF1 ∧
    NamedFieldsAgree 0x0000000000007F0100000002 0xFFFFFFFFFFFF7F010000FFF2 ∧
    NamedFieldsAgree 0x043344497F010000F00000A6 0x043344497F010000F000FFA6 ∧
    NamedFieldsAgree 0x00000000000000000000000F 0xFFFFFFFFFFFFFFFFFFFFFFFF := by
  unfold NamedFieldsAgree
  refine ⟨⟨?_, ?_, ?_, ?_, ?_⟩, ⟨?_, ?_, ?_, ?_, ?_⟩, ⟨?_, ?_, ?_, ?_, ?_⟩, ?_, ?_, ?_, ?_, ?_⟩ <;> decide

theorem witness_StepRunsTheDecodedCommand :
    ({ State.reset with input := [.command 0xB TagRecord.idle FrameRecord.idle, .resetPin] } : State).input =
      .command 0xB TagRecord.idle FrameRecord.idle :: [.resetPin] ∧ decode 0xB = .readStatus := by decide

theorem witness_StepWithNothingPresentedChangesNothing : State.reset.input = [] := by decide

theorem witness_ResetRestoresTheInitialBlock :
    ({ State.reset with input := [.resetPin] } : State).input = .resetPin :: [] := by decide

/-- Words with every selector value, their other bits set. -/
theorem witness_OpcodeMapSelectsByLowFourBits : ∀ n : Fin 16,
    (BitVec.ofNat 96 (0xFFFFFFFFFFFFFFFFFFFFFFF0 + n.val)).toNat % 16 = n.val := by decide

theorem witness_FeedRunsItsBytesInOrder :
    ({ State.reset with input := feed [0x49, 0x44] ++ [.resetPin] } : State).input =
      feed [0x49, 0x44] ++ [.resetPin] := by decide

theorem witness_SyncsafeCodeIsInvertible : (0x7F : Byte).toNat < 128 ∧ (0x00 : Byte).toNat < 128 := by decide

/-- L1-3 and L1-5 are tag headers by the table; L1-4 is none. -/
theorem l13_shape : TagHeaderShape l13 0 := by unfold TagHeaderShape; decide
theorem l15_shape : TagHeaderShape l15 6 := by unfold TagHeaderShape; decide
theorem l14_no_shape : ¬ TagHeaderShape (0x48 :: l13.drop 1) 0 := by unfold TagHeaderShape; decide
theorem tit2_shape : FrameHeaderShape tit2Window := by unfold FrameHeaderShape IdCode; decide

theorem witness_TagHeaderCheckFollowsRuleTable : 10 ≤ (10 : BitVec 4).toNat ∧ (9 : BitVec 4).toNat < 10 := by decide

theorem witness_TagHeaderDecodeExtractsFields :
    10 ≤ (15 : BitVec 4).toNat ∧
    ((0 : BitVec 4).toNat < 10 ∧
      ¬ ((0x48 :: l13.drop 1).length = 10 ∧ TagHeaderShape (0x48 :: l13.drop 1) (0 : BitVec 4).toNat)) ∧
    ((6 : BitVec 4).toNat < 10 ∧ l15.length = 10 ∧ TagHeaderShape l15 (6 : BitVec 4).toNat) :=
  ⟨by decide, ⟨by decide, fun h => l14_no_shape h.2⟩, by decide, rfl, l15_shape⟩

theorem witness_FrameHeaderDecodeExtractsFields :
    ¬ ((tit2Window.take 9).length = 10 ∧ FrameHeaderShape (tit2Window.take 9)) ∧
    (tit2Window.length = 10 ∧ FrameHeaderShape tit2Window ∧ State.reset.cfg.flagMap = id3v23FlagMap) :=
  ⟨fun h => absurd h.1 (by decide), rfl, tit2_shape, rfl⟩

theorem witness_FrameHeaderRecordDeterminesItsBytes : id3v23FlagMap.wf = true ∧
    frameHeaderDecode id3v23FlagMap tit2Window = .ok (fhOf idTit2 9 .text) := ⟨by decide, rfl⟩

theorem witness_DefaultFrameByFirstByte : idTit2.c0.toNat = 0x54 ∧ idMcdi.c0.toNat ≠ 0x54 := by decide

theorem witness_FrameLookupFindsFirstOrDefault :
    (({ State.reset with recIn := ⟨hdr19, [emptyFrame idMcdi, p1Frame]⟩ } : State).recIn.frames =
      [emptyFrame idMcdi] ++ p1Frame :: [] ∧ p1Frame.fh.id = idTit2 ∧
      ∀ g ∈ [emptyFrame idMcdi], g.fh.id ≠ idTit2) ∧
    ∀ g ∈ State.reset.recIn.frames, g.fh.id ≠ idTit2 := by decide

theorem witness_TextPayloadHandsOverBytesAfterSelector :
    (emptyFrame idMcdi).fh.type ≠ .text ∧
    (p1Partial.fh.type = .text ∧ p1Partial.st ≠ .complete) ∧
    ((defaultFrame idTit2).fh.type = .text ∧ (defaultFrame idTit2).st = .complete ∧
      (defaultFrame idTit2).data = 0x01 :: [0xFF, 0xFE, 0x00, 0x00]) ∧
    (({ p1Frame with data := [] } : FrameRecord).fh.type = .text ∧
      ({ p1Frame with data := [] } : FrameRecord).st = .complete) := by decide

theorem witness_ReservedOperationsAnswerIllegalOp :
    Instr.reservedE ∈ [Instr.reserved0, .reservedC, .reservedD, .reservedE] ∧
    (0xFFFFFFFFFFFFFFFFFFFFFFF0 : Cmd).toNat % 16 ∈ [0x0, 0xC, 0xD, 0xE] ∧
    (0xFFFFFFFFFFFFFFFFFFFFFFFC : Cmd).toNat % 16 ∈ [0x0, 0xC, 0xD, 0xE] := by decide

/-- Two different states on which the hypotheses hold for each of the three commands that read a record or the block:
the block differs for FRAME_LOOKUP and TEXT_PAYLOAD, the records for READ_STATUS. -/
theorem witness_OtherCommandsArePureFunctions :
    ((Instr.frameLookup idTit2).op ≠ .byteIn ∧ (Instr.frameLookup idTit2).op ≠ .reset ∧
      State.reset.recIn = (withBlock (nineBytes (Vector.replicate 10 1))).recIn) ∧
    (Instr.textPayload.op ≠ .byteIn ∧ Instr.textPayload.op ≠ .reset ∧
      State.reset.frecIn = (withBlock (nineBytes (Vector.replicate 10 1))).frecIn) ∧
    (Instr.readStatus.op ≠ .byteIn ∧ Instr.readStatus.op ≠ .reset ∧
      State.reset.blk = ({ State.reset with frecIn := p1Frame } : State).blk) ∧
    State.reset.cfg = (withBlock (nineBytes (Vector.replicate 10 1))).cfg ∧
    State.reset ≠ withBlock (nineBytes (Vector.replicate 10 1)) := by decide

theorem witness_FrameAddByteAppendsSelectsAndCloses :
    p1Frame.st = .complete ∧
    ((frameInit (fhOf idTit2 2 .text) true).st = .addingData ∧ (frameInit (fhOf idTit2 2 .text) true).data = [] ∧
      (frameInit (fhOf idTit2 2 .text) true).fh.type = .text ∧ (0x02 : Byte) ≠ 0x00 ∧ (0x02 : Byte) ≠ 0x01) ∧
    (p1Partial.st = .addingData ∧ ¬ (p1Partial.data = [] ∧ p1Partial.fh.type = .text)) ∧
    ((frameInit (fhOf idMcdi 2 .other) true).st = .addingData ∧
      (frameInit (fhOf idMcdi 2 .other) true).fh.type ≠ .text) ∧
    frameAddByte p1Partial 0x00 = .ok p1Frame := ⟨by decide, by decide, by decide, by decide, rfl⟩

theorem accepted_text (bs : List Byte) : PayloadAccepted .text (0x01 :: bs) := by
  rintro _ b hb; exact .inr (Option.some.inj hb).symm

theorem witness_FrameCompletesExactlyOnItsLastByte :
    (p1Frame.data.length = p1Frame.fh.size.toNat ∧ PayloadAccepted p1Frame.fh.type p1Frame.data ∧
      8 < p1Frame.data.length) ∧
    (([] : List Byte).length = (fhOf idTit2 0 .text).size.toNat ∧ PayloadAccepted .text []) :=
  ⟨⟨rfl, accepted_text _, by decide⟩, rfl, fun _ _ h => by cases h⟩

theorem witness_PaddingAndBufferActions :
    ((creating 9 0 [] []).st = .creatingFrameHeader ∧ (creating 9 0 [] []).pend = []) ∧
    (¬ ((creating 9 1 [0x54] []).pend = [] ∧ (0x00 : Byte) = 0x00) ∧ (creating 9 1 [0x54] []).pend.length ≠ 9) ∧
    ¬ ((creating 9 0 [] []).pend = [] ∧ (0x54 : Byte) = 0x00) ∧
    ((padding 9 1).st = .padding ∧ (0x01 : Byte) ≠ 0x00) ∧
    ({ padding 9 9 with st := .complete } : TagContext).st = .complete := by decide

/-- The nine bytes before the tenth of a frame header, with these flag bytes. -/
def nine (id : FrameId) (size flags8 : Byte) : List Byte := [id.c0, id.c1, id.c2, id.c3, 0, 0, 0, size, flags8]

/-- Each path of the tenth byte: an illegal header; a valid one that is a duplicate; a compressed, then an encrypted
TEXT frame; a plain one of size 0 and of size 9; the bounds met exactly and passed. -/
theorem witness_TenthHeaderByteBuildsAFrame :
    ((creating 99 9 (nine idTit2 9 0) []).st = .creatingFrameHeader ∧ (nine idTit2 9 0).length = 9) ∧
    ¬ FrameHeaderShape (nine idTit2 9 0x01 ++ [0x00]) ∧
    FrameHeaderShape (nine idTit2 9 0 ++ [0x00]) ∧ FrameHeaderShape (nine idTit2 0 0 ++ [0x00]) ∧
    FrameHeaderShape (nine idTit2 9 0 ++ [0x80]) ∧ FrameHeaderShape (nine idTit2 9 0 ++ [0x40]) ∧
    (∃ g ∈ [p1Frame], g.fh.id = idTit2) ∧ (∀ g ∈ [emptyFrame idMcdi], g.fh.id ≠ idTit2) ∧
    ((extractFrameHeader id3v23FlagMap (nine idTit2 9 0 ++ [0x80])).type = .text ∧
      (extractFrameHeader id3v23FlagMap (nine idTit2 9 0 ++ [0x80])).comp = true) ∧
    ((extractFrameHeader id3v23FlagMap (nine idTit2 9 0 ++ [0x40])).comp = false ∧
      (extractFrameHeader id3v23FlagMap (nine idTit2 9 0 ++ [0x40])).encr = true) ∧
    (∀ n, Bound.atMost 2 = .atMost n → [emptyFrame idMcdi].length < n) ∧ 1 ≤ [emptyFrame idMcdi].length ∧
    (∀ n, Bound.atMost 9 = .atMost n → declaredBytes [emptyFrame idMcdi] + (9 : Word32).toNat ≤ n) ∧
    8 < declaredBytes [emptyFrame idMcdi] + (9 : Word32).toNat := by
  refine ⟨by decide, by unfold FrameHeaderShape IdCode; decide, by unfold FrameHeaderShape IdCode; decide,
    by unfold FrameHeaderShape IdCode; decide, by unfold FrameHeaderShape IdCode; decide,
    by unfold FrameHeaderShape IdCode; decide, by decide, by decide, by decide, by decide, ?_, by decide, ?_, by decide⟩
  · intro n h; cases h; decide
  · intro n h; cases h; decide

theorem witness_FrameByteGoesToTheLastFrame :
    p1Context.st = .addingFrameBytes ∧ ({ p1Context with frames := [] } : TagContext).frames = [] ∧
    p1Context.frames = [] ++ [p1Partial] ∧ frameAddByte p1Partial 0x00 = .ok p1Frame ∧
    frameAddByte (frameInit (fhOf idTit2 2 .text) true) 0x04 =
      .error { code := .textEncodingUnknown, cap := .none } := ⟨rfl, rfl, rfl, rfl, rfl⟩

theorem witness_CounterForcesCompletion :
    stateAction defaultParams (padding 9 1) 0x01 = .error { code := .paddingNonzero, cap := .none } ∧
    (stateAction defaultParams (padding 9 1) 0x00 = .ok (padding 9 1) ∧
      (padding 9 1).cnt + 1 ≠ (padding 9 1).hdr.size.toNat) ∧
    (stateAction defaultParams (padding 9 8) 0x00 = .ok (padding 9 8) ∧
      (padding 9 8).cnt + 1 = (padding 9 8).hdr.size.toNat ∧ (padding 9 8).frames = []) ∧
    (stateAction defaultParams p1Context 0x00 =
        .ok { p1Context with st := .creatingFrameHeader, frames := [p1Frame] } ∧
      p1Context.cnt + 1 = p1Context.hdr.size.toNat ∧ p1Frame.st = .complete) ∧
    (∃ u f, stateAction defaultParams { p1Context with frames := [{ p1Partial with data := [0x01] }] } 0x00 = .ok u ∧
      u.cnt + 1 = u.hdr.size.toNat ∧ u.frames = [] ++ [f] ∧ f.st ≠ .complete) :=
  ⟨rfl, ⟨rfl, by decide⟩, ⟨rfl, rfl, rfl⟩, ⟨rfl, rfl, rfl⟩, _, _, rfl, rfl, rfl, by decide⟩

theorem witness_SizeZeroTagNeverCompletes : (creating 0 0 [] []).hdr.size = 0 ∧ (creating 0 0 [] []).st ≠ .complete ∧
    tagFeedAll defaultParams (creating 0 0 [] []) [0x54] = .ok (creating 0 1 [0x54] []) :=
  ⟨rfl, by decide, rfl⟩

theorem witness_AllPaddingTagCompletesOnItsLastByte : 0 < (hdrOf 1).size.toNat ∧ 0 < (hdrOf 0xFFFFFFF).size.toNat := by
  decide

/-- Boundary cases: nothing pending and a non-zero byte; eight bytes pending. -/
theorem witness_PartialHeaderIsDroppedAtCompletion :
    ((creating 1 0 [] []).st = .creatingFrameHeader ∧ (creating 1 0 [] []).pend.length < 9 ∧
      ¬ ((creating 1 0 [] []).pend = [] ∧ (0x54 : Byte) = 0x00) ∧
      (∀ f ∈ (creating 1 0 [] []).frames, f.st = .complete) ∧
      (creating 1 0 [] []).cnt + 1 = (creating 1 0 [] []).hdr.size.toNat) ∧
    ((creating 19 18 ((nine idTit2 9 0).take 8) [emptyFrame idMcdi]).pend.length < 9 ∧
      (∀ f ∈ (creating 19 18 ((nine idTit2 9 0).take 8) [emptyFrame idMcdi]).frames, f.st = .complete) ∧
      18 + 1 = (creating 19 18 ((nine idTit2 9 0).take 8) [emptyFrame idMcdi]).hdr.size.toNat) := by decide

/-- Program P1's tag; a tag of one empty frame; an OTHER frame with all six flags set. -/
theorem witness_OneFrameTagDeliversItsPayload :
    (tit2Window.length = 10 ∧ FrameHeaderShape tit2Window ∧
      frameHeaderDecode id3v23FlagMap tit2Window = .ok p1Frame.fh ∧
      ¬ (p1Frame.fh.type = .text ∧ (p1Frame.fh.comp = true ∨ p1Frame.fh.encr = true)) ∧
      p1Frame.data.length = p1Frame.fh.size.toNat ∧ hdr19.size.toNat = 10 + p1Frame.data.length ∧
      PayloadAccepted p1Frame.fh.type p1Frame.data) ∧
    ((hdrOf 10).size.toNat = 10 + ([] : List Byte).length ∧ PayloadAccepted .text []) ∧
    (FrameHeaderShape allFlags ∧ ¬ (frameTypeOf (byteAt allFlags 0) = .text) ∧ PayloadAccepted .other [0x07]) ∧
    (∀ n, Bound.atMost 1 = .atMost n → 1 ≤ n) ∧ (∀ n, Bound.atMost 9 = .atMost n → p1Frame.data.length ≤ n) := by
  refine ⟨⟨rfl, tit2_shape, rfl, by decide, rfl, rfl, accepted_text _⟩, ⟨rfl, fun _ _ h => by cases h⟩,
    ⟨by unfold FrameHeaderShape IdCode; decide, by decide, fun h => by cases h⟩, ?_, ?_⟩
  · intro n h; cases h; decide
  · intro n h; cases h; decide

theorem witness_RingSlotReadAfterWrite : (9 : Fin 10) ≠ 0 := by decide
theorem witness_ByteInInsertsIntoTheRing : (9 : Fin 10) ≠ State.reset.blk.rbWr := by decide

theorem fullRing_ringInv (w : Vector Byte 10) (ts : List TagContext) : (fullRing w ts).RingInv :=
  ⟨rfl, fun h => absurd h (Nat.lt_irrefl 10)⟩
theorem nineBytes_ringInv (w : Vector Byte 10) : (nineBytes w).RingInv := ⟨rfl, fun _ => rfl⟩

theorem witness_RingHoldsTheLastTenBytes : Block.reset.RingInv ∧ (nineBytes (Vector.replicate 10 1)).RingInv ∧
    (fullRing (Vector.replicate 10 1) [p1Context]).RingInv :=
  ⟨⟨rfl, fun _ => rfl⟩, nineBytes_ringInv _, fullRing_ringInv _ _⟩

/-- The block after reset, and the same with 0xFF in every slot. -/
theorem witness_UnwrittenSlotsAreUnobservable :
    Block.reset.RingInv ∧ ({ Block.reset with rb := Vector.replicate 10 0xFF } : Block).RingInv ∧
    (∀ i : Fin 10, i.val < Block.reset.rbFill.val →
      Block.reset.memRead i = ({ Block.reset with rb := Vector.replicate 10 0xFF } : Block).memRead i) :=
  ⟨⟨rfl, fun _ => rfl⟩, ⟨rfl, fun _ => rfl⟩, fun _ h => absurd h (Nat.not_lt_zero _)⟩

/-- Version, flags and last byte of a header that nine held bytes and one more make. -/
def scanned (ver flags : Byte) : List Byte :=
  lastN 10 ((nineBytes #v[0x49, 0x44, 0x33, ver, 0, flags, 0, 0, 0, 0]).held ++ [0x13])

/-- Too few bytes; ten bytes that are no header; a header of version 4, with unsynchronisation, with an extended
header, and a supported one; TAG_SLOTS 1 met and free. -/
theorem witness_HeaderScanOpensOrRejects :
    ((nineBytes #v[0x49, 0x44, 0x33, 3, 0, 0, 0, 0, 0, 0]).RingInv ∧ (lastN 10 (Block.reset.held ++ [0x49])).length ≠ 10) ∧
    ¬ TagHeaderShape (scanned 5 0) 0 ∧
    ((scanned 4 0xC0).length = 10 ∧ TagHeaderShape (scanned 4 0xC0) 0 ∧ (byteAt (scanned 4 0xC0) 3).toNat ≠ 3) ∧
    (TagHeaderShape (scanned 3 0x80) 0 ∧ (extractTagHeader (scanned 3 0x80)).unsync = true) ∧
    (TagHeaderShape (scanned 3 0x40) 0 ∧ (extractTagHeader (scanned 3 0x40)).unsync = false ∧
      (extractTagHeader (scanned 3 0x40)).ext = true) ∧
    (TagHeaderShape (scanned 3 0) 0 ∧ (extractTagHeader (scanned 3 0)).ext = false) ∧
    1 ≤ ([padding 9 1].filterMap (survivor defaultParams 0x00)).length ∧
    (∀ n, Bound.atMost 1 = .atMost n → ([padding 9 8].filterMap (survivor defaultParams 0x00)).length < n) := by
  refine ⟨⟨nineBytes_ringInv _, by decide⟩, by unfold TagHeaderShape; decide, ⟨by decide, by unfold TagHeaderShape; decide,
    by decide⟩, ⟨by unfold TagHeaderShape; decide, by decide⟩, ⟨by unfold TagHeaderShape; decide, by decide, by decide⟩,
    ⟨by unfold TagHeaderShape; decide, by decide⟩, by decide, ?_⟩
  intro n h; cases h; decide

theorem witness_SupportedHeaderOpensOneContext :
    defaultParams.wf = true ∧ Block.reset.RingInv ∧ Block.reset.rbFill = 0 ∧ Block.reset.openTags = [] ∧
    (scanned 3 0x3F).length = 10 ∧ TagHeaderShape (scanned 3 0x30) 0 ∧ (byteAt (scanned 3 0x30) 3).toNat = 3 ∧
    (byteAt (scanned 3 0x30) 5).toNat < 64 :=
  ⟨by decide, ⟨rfl, fun _ => rfl⟩, rfl, rfl, by decide, by unfold TagHeaderShape; decide, by decide, by decide⟩

/-- A failing context between an older and a newer one. -/
theorem witness_FailedContextLeavesNoTrace : defaultParams.tagSlots = .unbounded ∧
    (fullRing (Vector.replicate 10 0) [p1Context, padding 9 1, creating 9 0 [] []]).openTags =
      [p1Context] ++ padding 9 1 :: [creating 9 0 [] []] ∧
    tagFeed defaultParams (padding 9 1) 0x54 = .error { code := .paddingNonzero, cap := .none } := ⟨rfl, rfl, rfl⟩

/-- The context of P1 before its last byte meets the invariants. -/
theorem p1Context_inv : p1Context.Inv defaultParams where
  hdr := ⟨rfl, rfl, rfl⟩
  open_ := by decide
  pend := by decide
  assembly := fun _ => rfl
  frames := by
    constructor
    · intro f hf; rw [List.mem_singleton.mp hf]
      exact ⟨by decide, by decide, by decide, by decide, by decide⟩
    · intro f hf; rw [List.mem_singleton.mp hf]
      exact ⟨by decide, by decide, by decide, by decide, by decide, fun _ => ⟨rfl, rfl⟩⟩
    · intro f hf; rw [List.mem_singleton.mp hf]; rfl
    · decide
    · intro n h; cases h
    · intro n h; cases h
  idle := fun h => absurd rfl h
  adding := fun _ => ⟨[], p1Partial, rfl, rfl, fun _ h => by cases h⟩
  counted := fun _ => rfl
  padded := by decide
  below := fun _ => by decide

/-- A block with that context open meets the invariants (the next byte makes it a TAG_FOUND, `test_byteIn_finds`). -/
theorem p1Block_inv : (fullRing (Vector.replicate 10 0) [p1Context]).Inv defaultParams where
  ring := fullRing_ringInv _ _
  tags := fun t ht => by rw [List.mem_singleton.mp ht]; exact p1Context_inv
  slots := fun n h => by cases h

theorem witness_EveryStepKeepsTheInvariant :
    (withBlock (fullRing (Vector.replicate 10 0) [p1Context])).Inv ∧
    ∃ t, step ((withBlock (fullRing (Vector.replicate 10 0) [p1Context])).withFetchWord 96 0x000001) = .next t ∧
      t.evtOut ≠ [] :=
  ⟨⟨p1Block_inv, fun _ h => (by cases h), fun _ h => (by cases h)⟩, _, rfl, by decide⟩

theorem witness_UnreachableCodesAreNeverEmitted :
    (withBlock (fullRing (Vector.replicate 10 0) [p1Context])).blk.Inv defaultParams ∧
    eventsOf (.byteIn 0x00) (withBlock (fullRing (Vector.replicate 10 0) [padding 9 1])) = some [] :=
  ⟨p1Block_inv, by decide⟩

theorem witness_FoundTagsAreWholeAndFit :
    (withBlock (fullRing (Vector.replicate 10 0) [p1Context])).blk.Inv defaultParams ∧
    Event.tagFound ⟨hdr19, [p1Frame]⟩ ∈
      (byteIn defaultParams (fullRing (Vector.replicate 10 0) [p1Context]) 0x00).events := ⟨p1Block_inv, by decide⟩

end Sys2Proof.Tests
end

section
/-! SUPPORT. The state after reset (10_state.md R35) and the numbers of the interfaces (10_state.md R29, R31;
30_encoding.md R77, R80). -/

namespace Sys2Proof.Machine

/-! ### READ_STATUS and the state after reset -/

/-- READ_STATUS answers the status word as a bare value; `respond` is its whole frame (45_scanner.md R209). -/
theorem exec_readStatus (s : State) : exec .readStatus s =
    .next { s with resp := { Response.okay with value := statusWord s.blk }, evtOut := [] } := rfl

/-- The reset block holds no byte, starts at slot 0 and has no open context, so each field of STATUS is 0. -/
theorem statusWord_reset : statusWord State.reset.blk = 0 := by decide

/-- Settles O25: the block's fields are those of `Block.reset`, and READ_STATUS answers its status word. -/
theorem stateAfterResetHasTheSpecsValues : Obligations.StateAfterResetHasTheSpecsValues := by
  have hstatus : exec .readStatus State.reset =
      .next { State.reset with resp := { Response.okay with value := 0 }, evtOut := [] } := by
    rw [exec_readStatus, statusWord_reset]
  exact ⟨by decide, rfl, rfl, rfl, rfl, rfl, hstatus⟩

/-! ### The numbers of the interfaces -/

/-- The event record of TAG_FOUND (30_encoding.md R80). -/
@[simp] theorem fields_tagFound (r : TagRecord) :
    (Event.tagFound r).fields = { kind := 1, code := 0, cap := 0, tagRec := some r } := rfl

/-- The event record of TAG_ERROR (30_encoding.md R80). -/
@[simp] theorem fields_tagError (e : TagError) : (Event.tagError e).fields =
    { kind := 2, code := e.code.number, cap := e.cap.number, tagRec := none } := rfl

/-- Settles O26: the seven tables are evaluated, the two kinds of event are read off their records. -/
theorem interfaceNumbersAreTheSpecs : Obligations.InterfaceNumbersAreTheSpecs := by
  unfold Obligations.InterfaceNumbersAreTheSpecs
  refine ⟨?statuses, ?errorCodes, ?caps, ?tagStates, ?frameStates, ?frameTypes, ?encodings, ?found, ?failed⟩
  case found => intro r; simp
  case failed => intro e; simp
  all_goals decide

end Sys2Proof.Machine
end

section
/-! SUPPORT. The opcode map (30_encoding.md R75) and the commands that write no block state (30_encoding.md R73). -/

namespace Sys2Proof.Machine

/-! ### The opcode map -/

/-- The low four bits of a word hold the selector value of the operation they select (30_encoding.md R72, R75). -/
theorem ofCode_opField_of_selector {c : Cmd} {op : Op} (h : c.toNat % 16 = op.code.toNat) :
    Op.ofCode c.opField = op := by
  have hcode : c.opField = op.code := BitVec.eq_of_toNat_eq ((opField_toNat c).trans h)
  rw [hcode, ofCode_code]

/-- A row of the opcode map follows from what `decode` answers for the words of that row's operation. -/
theorem selectedBy_code (op : Op) {i : Cmd → Instr} (hrow : ∀ c, Op.ofCode c.opField = op → decode c = i c) :
    SelectedBy op.code.toNat i := fun c h => hrow c (ofCode_opField_of_selector h)

/-- Settles O4: each selector value is the code of one operation, and `decode` branches on that operation alone. -/
theorem opcodeMapSelectsByLowFourBits : Obligations.OpcodeMapSelectsByLowFourBits := by
  refine ⟨selectedBy_code .reserved0 ?_, selectedBy_code .byteIn ?_, selectedBy_code .decodeInt ?_,
    selectedBy_code .decodeSyncsafe ?_, selectedBy_code .tagHdrCheck ?_, selectedBy_code .frameHdrCheck ?_,
    selectedBy_code .tagHdrDecode ?_, selectedBy_code .frameHdrDecode ?_, selectedBy_code .defaultFrame ?_,
    selectedBy_code .frameLookup ?_, selectedBy_code .textPayload ?_, selectedBy_code .readStatus ?_,
    selectedBy_code .reservedC ?_, selectedBy_code .reservedD ?_, selectedBy_code .reservedE ?_,
    selectedBy_code .reset ?_⟩
  all_goals
    intro c hop
    simp only [decode, hop]

/-! ### Commands that write no block state

The four that read more than their operand bytes: the build's flag map, a presented record, or the block (for
READ_STATUS see `exec_readStatus`). -/

/-- FRAME_HDR_DECODE reads the build's flag map (42_header_decode.md R133, R134). -/
theorem exec_frameHdrDecode (w : List Byte) (s : State) : exec (.frameHdrDecode w) s =
    .next (respond s (frameHeaderResponse (frameHeaderDecode s.cfg.flagMap w))) := rfl

/-- FRAME_LOOKUP reads the presented tag record (44_tag.md R190; 30_encoding.md R78). -/
theorem exec_frameLookup (id : FrameId) (s : State) : exec (.frameLookup id) s =
    .next (respond s (frameResponse (getFrame s.recIn id))) := rfl

/-- TEXT_PAYLOAD reads the presented frame record (43_frame.md R158; 30_encoding.md R78). -/
theorem exec_textPayload (s : State) : exec .textPayload s = .next (respond s (textPayload s.frecIn)) := rfl

/-- Settles O23: each command but BYTE_IN and RESET ends in `respond`. Its response is made of its operands alone but for
the four commands that read the one further field the two states agree on. -/
theorem otherCommandsArePureFunctions : Obligations.OtherCommandsArePureFunctions := by
  intro i s t hbyteIn hreset hcfg hrec hfrec hblk
  cases i with
  | byteIn => exact absurd rfl hbyteIn
  | reset => exact absurd rfl hreset
  | frameHdrDecode w =>
    refine ⟨_, exec_frameHdrDecode w s, ?_⟩
    rw [hcfg]
    exact exec_frameHdrDecode w t
  | frameLookup id =>
    refine ⟨_, exec_frameLookup id s, ?_⟩
    rw [hrec rfl]
    exact exec_frameLookup id t
  | textPayload =>
    refine ⟨_, exec_textPayload s, ?_⟩
    rw [hfrec rfl]
    exact exec_textPayload t
  | readStatus =>
    refine ⟨_, exec_readStatus s, ?_⟩
    rw [hblk rfl]
    exact exec_readStatus t
  | _ => exact ⟨_, rfl, rfl⟩

end Sys2Proof.Machine
end

section
/-! SUPPORT. The field decoders as commands (40_field_decoders.md R100, R102) and the syncsafe code (R103). -/

namespace Sys2Proof.Machine

/-! ### The syncsafe code -/

/-- A byte of the encoding holds the 7-bit group of n that begins at bit k (40_field_decoders.md R103). -/
theorem syncsafeByte_extractLsb'_toNat (n : BitVec 28) (k : Nat) :
    (syncsafeByte (n.extractLsb' k 7)).toNat = n.toNat / 2 ^ k % 128 := by
  rw [syncsafeByte_toNat, BitVec.extractLsb'_toNat, Nat.shiftRight_eq_div_pow]

/-- The encoding read as four numbers: n's base-128 digits, the most significant first (40_field_decoders.md R103). -/
theorem syncsafeEncode_eq_iff (n : BitVec 28) (b0 b1 b2 b3 : Byte) :
    syncsafeEncode n = [b0, b1, b2, b3] ↔
      b0.toNat = n.toNat / 2 ^ 21 % 128 ∧ b1.toNat = n.toNat / 2 ^ 14 % 128 ∧
      b2.toNat = n.toNat / 2 ^ 7 % 128 ∧ b3.toNat = n.toNat % 128 := by
  simp only [syncsafeEncode, List.cons.injEq, and_true, ← BitVec.toNat_inj, syncsafeByte_extractLsb'_toNat,
    Nat.pow_zero, Nat.div_one, eq_comm]

/-- The decoded value, each byte's bit 7 left out (40_field_decoders.md R102). -/
theorem decodeSyncsafe_toNat_eq_sum (b0 b1 b2 b3 : Byte) : (decodeSyncsafe b0 b1 b2 b3).toNat =
    b0.toNat % 128 * 2 ^ 21 + b1.toNat % 128 * 2 ^ 14 + b2.toNat % 128 * 2 ^ 7 + b3.toNat % 128 :=
  (decodeSyncsafe_toNat ..).trans (syncsafeGroups_toNat ..)

/-- The decoded value is a u28 (40_field_decoders.md R102). -/
theorem decodeSyncsafe_toNat_lt (b0 b1 b2 b3 : Byte) : (decodeSyncsafe b0 b1 b2 b3).toNat < 2 ^ 28 :=
  (decodeSyncsafe_toNat ..).trans_lt (syncsafeGroups ..).isLt

/-- Decoding the bytes of an encoding recovers n: its base-128 digits sum to it (40_field_decoders.md R103). -/
theorem decodeSyncsafe_of_syncsafeEncode {n : BitVec 28} {b0 b1 b2 b3 : Byte}
    (h : syncsafeEncode n = [b0, b1, b2, b3]) : (decodeSyncsafe b0 b1 b2 b3).toNat = n.toNat := by
  obtain ⟨h0, h1, h2, h3⟩ := (syncsafeEncode_eq_iff ..).mp h
  have hn := n.isLt
  rw [decodeSyncsafe_toNat_eq_sum]
  omega

/-- Encoding what four bytes with bit 7 clear decode to recovers them: they are the digits of their own sum
(40_field_decoders.md R103). -/
theorem syncsafeEncode_syncsafeGroups {b0 b1 b2 b3 : Byte} (h0 : b0.toNat < 128) (h1 : b1.toNat < 128)
    (h2 : b2.toNat < 128) (h3 : b3.toNat < 128) :
    syncsafeEncode (syncsafeGroups b0 b1 b2 b3) = [b0, b1, b2, b3] := by
  rw [syncsafeEncode_eq_iff, syncsafeGroups_toNat]
  omega

/-- Settles O12: the encoding is the four base-128 digits, which determine n and are determined by it. -/
theorem syncsafeCodeIsInvertible : Obligations.SyncsafeCodeIsInvertible := by
  constructor
  · intro n
    have henc : syncsafeEncode n = [_, _, _, _] := rfl
    obtain ⟨h0, h1, h2, h3⟩ := (syncsafeEncode_eq_iff ..).mp henc
    have hn := n.isLt
    exact ⟨_, _, _, _, henc, by omega, h1, h2, h3, decodeSyncsafe_of_syncsafeEncode henc⟩
  · intro b0 b1 b2 b3 h0 h1 h2 h3
    exact ⟨syncsafeGroups b0 b1 b2 b3, (decodeSyncsafe_toNat ..).symm, syncsafeEncode_syncsafeGroups h0 h1 h2 h3⟩

/-! ### The two commands -/

/-- DECODE_INT answers the decoded integer as a bare value; `respond` is its whole frame (40_field_decoders.md R100). -/
theorem exec_decodeInt (b0 b1 b2 b3 : Byte) (s : State) : exec (.decodeInt b0 b1 b2 b3) s =
    .next { s with resp := { Response.okay with value := decodeInteger b0 b1 b2 b3 }, evtOut := [] } := rfl

/-- DECODE_SYNCSAFE answers the decoded u28 as a bare value; `respond` is its whole frame (40_field_decoders.md R102). -/
theorem exec_decodeSyncsafe (b0 b1 b2 b3 : Byte) (s : State) : exec (.decodeSyncsafe b0 b1 b2 b3) s =
    .next { s with resp := { Response.okay with value := decodeSyncsafe b0 b1 b2 b3 }, evtOut := [] } := rfl

/-- Settles O10: the row of the opcode map, and the response that carries the big-endian sum. -/
theorem decodeIntAnswersBigEndianSum : Obligations.DecodeIntAnswersBigEndianSum := by
  obtain ⟨-, -, hselector, -⟩ := opcodeMapSelectsByLowFourBits
  exact ⟨hselector, fun _ _ _ _ _ => ⟨_, decodeInteger_toNat .., exec_decodeInt ..⟩⟩

/-- Settles O11: the row of the opcode map, and the response that carries the sum of the four groups. -/
theorem decodeSyncsafeAnswersSumOfGroups : Obligations.DecodeSyncsafeAnswersSumOfGroups := by
  obtain ⟨-, -, -, hselector, -⟩ := opcodeMapSelectsByLowFourBits
  exact ⟨hselector, fun _ _ _ _ _ =>
    ⟨_, decodeSyncsafe_toNat_eq_sum .., decodeSyncsafe_toNat_lt .., exec_decodeSyncsafe ..⟩⟩

end Sys2Proof.Machine
end

section
/-! SUPPORT. The header validators as commands (41_header_validators.md R113 to R118). -/

namespace Sys2Proof.Machine

/-! ### TAG_HDR_CHECK -/

/-- TAG_HDR_CHECK answers the outcome of the tag-header check; `respond` is its whole frame (41_header_validators.md
R115). -/
theorem exec_tagHdrCheck (start : BitVec 4) (w : List Byte) (s : State) : exec (.tagHdrCheck start w) s =
    .next (respond s (checkResponse (tagHeaderCheck w start.toNat))) := rfl

/-- No verdict from offset 10 on (41_header_validators.md R114). -/
theorem tagHeaderCheck_of_ge {start : Nat} (w : List Byte) (h : 10 ≤ start) : tagHeaderCheck w start = .addrError :=
  if_pos h

/-- A verdict for every offset below 10: the rule table's, on a window of ten bytes (41_header_validators.md R113,
R114). -/
theorem tagHeaderCheck_of_lt {start : Nat} (w : List Byte) (h : start < 10) :
    ∃ r : Bool, (r = true ↔ w.length = 10 ∧ TagHeaderShape w start) ∧ tagHeaderCheck w start = .verdict r := by
  rcases tagHeaderCheck_cases w start with ⟨hge, -⟩ | ⟨-, hbad, hcheck⟩ | ⟨-, hlen, hshape, hcheck⟩
  · exact absurd h (Nat.not_lt.mpr hge)
  · exact ⟨false, iff_of_false Bool.false_ne_true hbad, hcheck⟩
  · exact ⟨true, iff_of_true rfl ⟨hlen, hshape⟩, hcheck⟩

/-- Settles O13: the row of the opcode map, and the response to what the check answers on each side of offset 10. -/
theorem tagHeaderCheckFollowsRuleTable : Obligations.TagHeaderCheckFollowsRuleTable := by
  obtain ⟨-, -, -, -, hselector, -⟩ := opcodeMapSelectsByLowFourBits
  refine ⟨hselector, fun start w s => ⟨fun hge => ?_, fun hlt => ?_⟩⟩
  · rw [exec_tagHdrCheck, tagHeaderCheck_of_ge w hge]
    rfl
  · obtain ⟨r, hr, hcheck⟩ := tagHeaderCheck_of_lt w hlt
    refine ⟨r, hr, ?_⟩
    rw [exec_tagHdrCheck, hcheck]
    rfl

/-! ### FRAME_HDR_CHECK -/

/-- FRAME_HDR_CHECK answers the verdict of the frame-header predicates as a bare flag; `respond` is its whole frame
(41_header_validators.md R118). -/
theorem exec_frameHdrCheck (w : List Byte) (s : State) : exec (.frameHdrCheck w) s =
    .next { s with resp := { Response.okay with flag := containsHeaderBytes framePredicates w }, evtOut := [] } := rfl

/-- Settles O14: the row of the opcode map, and the response that carries the verdict of the rule table. -/
theorem frameHeaderCheckFollowsRuleTable : Obligations.FrameHeaderCheckFollowsRuleTable := by
  obtain ⟨-, -, -, -, -, hselector, -⟩ := opcodeMapSelectsByLowFourBits
  exact ⟨hselector, fun w s => ⟨_, containsHeaderBytes_frame_iff w, exec_frameHdrCheck w s⟩⟩

end Sys2Proof.Machine
end

section
/-! SUPPORT. TAG_HDR_DECODE as a command (42_header_decode.md R130, R131). -/

namespace Sys2Proof.Machine

/-- TAG_HDR_DECODE answers the outcome of the tag-header decode; `respond` is its whole frame (42_header_decode.md
R130). -/
theorem exec_tagHdrDecode (start : BitVec 4) (w : List Byte) (s : State) : exec (.tagHdrDecode start w) s =
    .next (respond s (tagHeaderResponse (tagHeaderDecode w start.toNat))) := rfl

/-- AddrError from offset 10 on (42_header_decode.md R130). -/
theorem tagHeaderDecode_of_ge {start : Nat} (w : List Byte) (h : 10 ≤ start) :
    tagHeaderDecode w start = .error .addrError := by
  rw [tagHeaderDecode, tagHeaderCheck_of_ge w h]

/-- HeaderInvalid on a window that is no tag header (42_header_decode.md R130). -/
theorem tagHeaderDecode_of_not_shape {w : List Byte} {start : Nat} (h : start < 10)
    (hbad : ¬ (w.length = 10 ∧ TagHeaderShape w start)) : tagHeaderDecode w start = .error .headerInvalid := by
  rcases tagHeaderDecode_cases w start with ⟨hge, -⟩ | ⟨-, -, hdecode⟩ | ⟨-, hlen, hshape, -⟩
  · exact absurd h (Nat.not_lt.mpr hge)
  · exact hdecode
  · exact absurd ⟨hlen, hshape⟩ hbad

/-- The record of the rotated window, on a tag header of whichever version the rule table admits (42_header_decode.md
R130, R131). -/
theorem tagHeaderDecode_of_shape {w : List Byte} {start : Nat} (h : start < 10) (hlen : w.length = 10)
    (hshape : TagHeaderShape w start) :
    tagHeaderDecode w start = .ok (extractTagHeader (logicalWindow w start)) := by
  rcases tagHeaderDecode_cases w start with ⟨hge, -⟩ | ⟨-, hbad, -⟩ | ⟨-, -, -, hdecode⟩
  · exact absurd h (Nat.not_lt.mpr hge)
  · exact absurd ⟨hlen, hshape⟩ hbad
  · exact hdecode

/-- Settles O15: the row of the opcode map, and the response to each of the three outcomes of the decode, the record
being the one extracted from the rotated window. -/
theorem tagHeaderDecodeExtractsFields : Obligations.TagHeaderDecodeExtractsFields := by
  obtain ⟨-, -, -, -, -, -, hselector, -⟩ := opcodeMapSelectsByLowFourBits
  refine ⟨hselector, fun start w s => ⟨fun hge => ?_, fun hlt hbad => ?_, fun hlt hlen hshape =>
    ⟨_, extractTagHeader_of w start.toNat, ?_⟩⟩⟩
  · rw [exec_tagHdrDecode, tagHeaderDecode_of_ge w hge]
    rfl
  · rw [exec_tagHdrDecode, tagHeaderDecode_of_not_shape hlt hbad]
    rfl
  · rw [exec_tagHdrDecode, tagHeaderDecode_of_shape hlt hlen hshape]
    rfl

end Sys2Proof.Machine
end

section
/-! SUPPORT. The frame unit's bytes (43_frame.md R151 to R153), and DEFAULT_FRAME and TEXT_PAYLOAD as commands (R155 to
R160). -/

namespace Sys2Proof.Machine

/-! ### Adding one byte -/

/-- A COMPLETE frame refuses every byte (43_frame.md R151). -/
theorem frameAddByte_of_complete {f : FrameRecord} (b : Byte) (h : f.st = .complete) :
    frameAddByte f b = .error (tagErr .frameAlreadyComplete) := by
  rw [frameAddByte, h]

/-- The first byte of a TEXT frame is refused unless it is one of the two selectors (43_frame.md R152). -/
theorem frameAddByte_of_bad_selector {f : FrameRecord} {b : Byte} (hst : f.st = .addingData) (hd : f.data = [])
    (ht : f.fh.type = .text) (h0 : b ≠ 0x00) (h1 : b ≠ 0x01) :
    frameAddByte f b = .error (tagErr .textEncodingUnknown) := by
  rcases frameAddByte_cases f b with ⟨hc, -⟩ | ⟨-, -, -, -, -, hadd⟩ | ⟨-, hsel, -⟩
  · exact absurd hc (by simp [hst])
  · exact hadd
  · exact ((hsel hd ht).elim h0 h1).elim

/-- An open frame takes every byte but a TEXT frame's bad selector (43_frame.md R151, R152). -/
theorem frameAddByte_of_accepted {f : FrameRecord} {b : Byte} (hst : f.st = .addingData)
    (hsel : f.data = [] → f.fh.type = .text → b = 0x00 ∨ b = 0x01) :
    frameAddByte f b = .ok (frameTaken f b) := by
  rcases frameAddByte_cases f b with ⟨hc, -⟩ | ⟨-, hd, ht, h0, h1, -⟩ | ⟨-, -, hadd⟩
  · exact absurd hc (by simp [hst])
  · exact ((hsel hd ht).elim h0 h1).elim
  · exact hadd

/-- The selector of a TEXT frame picks the encoding (43_frame.md R152). -/
theorem frameTaken_enc_of_selector {f : FrameRecord} (b : Byte) (hd : f.data = []) (ht : f.fh.type = .text) :
    (frameTaken f b).enc = if b = 0x00 then .latin1 else .utf16 := if_pos ⟨hd, ht⟩

/-- No other byte is interpreted (43_frame.md R152). -/
theorem frameTaken_enc_of_not_selector {f : FrameRecord} (b : Byte) (h : ¬ (f.data = [] ∧ f.fh.type = .text)) :
    (frameTaken f b).enc = f.enc := if_neg h

/-- An open frame is closed by a byte exactly when that byte fills its buffer (43_frame.md R153). -/
theorem frameTaken_st_complete_iff {f : FrameRecord} (b : Byte) (h : f.st = .addingData) :
    (frameTaken f b).st = .complete ↔ (frameTaken f b).data.length = f.fh.size.toNat := by
  simp [frameTaken, h]

/-- Settles O27: the outcomes of `frameAddByte` one by one, the fields being those of `frameTaken`. -/
theorem frameAddByteAppendsSelectsAndCloses : Obligations.FrameAddByteAppendsSelectsAndCloses := by
  intro f b
  refine ⟨frameAddByte_of_complete b, fun hst hd ht => ⟨?latin1, ?utf16, frameAddByte_of_bad_selector hst hd ht⟩,
    fun hst hother => ?other, fun g hadd => ?taken⟩
  case latin1 =>
    rintro rfl
    exact ⟨_, frameAddByte_of_accepted hst fun _ _ => .inl rfl, frameTaken_enc_of_selector _ hd ht⟩
  case utf16 =>
    rintro rfl
    exact ⟨_, frameAddByte_of_accepted hst fun _ _ => .inr rfl, frameTaken_enc_of_selector _ hd ht⟩
  case other =>
    exact ⟨_, frameAddByte_of_accepted hst fun hd ht => absurd ⟨hd, ht⟩ hother,
      frameTaken_enc_of_not_selector b hother⟩
  case taken =>
    obtain ⟨hst, -, rfl⟩ := frameAddByte_ok hadd
    exact ⟨rfl, rfl, rfl, frameTaken_st_complete_iff b hst⟩

/-! ### A whole payload -/

/-- A part of an accepted payload, from its first byte on, is accepted (43_frame.md R152). -/
theorem PayloadAccepted.take {ty : FrameType} {data : List Byte} (h : PayloadAccepted ty data) (k : Nat) :
    PayloadAccepted ty (data.take k) := by
  intro ht b hb
  rw [List.head?_take] at hb
  split at hb
  · cases hb
  · exact h ht b hb

/-- A new frame fed an accepted payload that fits stands at the end of that payload (43_frame.md R150 to R153). -/
theorem frameAddBytes_frameInit {fh : FrameHeader} (inSrc : Bool) {data : List Byte}
    (hfits : data.length ≤ fh.size.toNat) (ha : PayloadAccepted fh.type data) :
    frameAddBytes (frameInit fh inSrc) data = .ok (partway fh inSrc data) := by
  rw [frameInit_partway]
  exact frameAddBytes_partway fh inSrc data [] hfits ha

/-- At its declared size a frame is COMPLETE (43_frame.md R153). -/
theorem partway_of_full {fh : FrameHeader} (inSrc : Bool) {data : List Byte} (h : data.length = fh.size.toNat) :
    partway fh inSrc data =
      { fh := fh, data := data, st := .complete, inSrc := inSrc, enc := selectedEnc fh.type data } := by
  rw [partway, if_pos h]

/-- Short of its declared size a frame is still open (43_frame.md R153). -/
theorem partway_st_of_lt {fh : FrameHeader} (inSrc : Bool) {data : List Byte} (h : data.length < fh.size.toNat) :
    (partway fh inSrc data).st = .addingData := if_neg h.ne

/-- Settles O28: the whole payload and each shorter part leave the frame `partway`, which is COMPLETE at the full length
alone; the further byte meets a COMPLETE frame. -/
theorem frameCompletesExactlyOnItsLastByte : Obligations.FrameCompletesExactlyOnItsLastByte := by
  intro fh inSrc data hlen ha
  have hwhole := frameAddBytes_frameInit inSrc hlen.le ha
  rw [partway_of_full inSrc hlen] at hwhole
  refine ⟨hwhole, fun k hk => ?shorter, fun b => ?further⟩
  case shorter =>
    have hshort : (data.take k).length < fh.size.toNat := by
      rw [List.length_take]
      omega
    exact ⟨_, frameAddBytes_frameInit inSrc hshort.le (ha.take k), partway_st_of_lt inSrc hshort, rfl⟩
  case further =>
    rw [frameAddBytes_append, hwhole]
    simp only [frameAddBytes]
    rw [frameAddByte_of_complete b rfl]
    rfl

/-! ### DEFAULT_FRAME -/

/-- DEFAULT_FRAME answers the synthesised frame alone; `respond` is its whole frame (43_frame.md R156). -/
theorem exec_defaultFrame (id : FrameId) (s : State) : exec (.defaultFrame id) s =
    .next { s with resp := { Response.okay with frame := some (defaultFrame id) }, evtOut := [] } := rfl

/-- The default TEXT frame, for first byte 0x54 (43_frame.md R155 to R157). -/
theorem defaultFrame_of_text {id : FrameId} (h : id.c0.toNat = 0x54) : defaultFrame id =
    { fh := { id := id, size := 5, tap := false, fap := false, ro := false, comp := false, encr := false,
              grp := false, type := .text },
      data := [0x01, 0xFF, 0xFE, 0x00, 0x00], st := .complete, inSrc := false, enc := .utf16 } := by
  have ht : frameTypeOf id.c0 = .text := (frameTypeOf_text_iff id.c0).mpr h
  simp only [defaultFrame, defaultFrameHeader, ht]
  rfl

/-- The default OTHER frame, for every other first byte (43_frame.md R155, R156). -/
theorem defaultFrame_of_other {id : FrameId} (h : id.c0.toNat ≠ 0x54) : defaultFrame id =
    { fh := { id := id, size := 0, tap := false, fap := false, ro := false, comp := false, encr := false,
              grp := false, type := .other },
      data := [], st := .complete, inSrc := false, enc := .none } := by
  have ht : frameTypeOf id.c0 = .other := if_neg (mt (byte_eq_iff id.c0 0x54 (by omega)).mp h)
  simp only [defaultFrame, defaultFrameHeader, ht]
  rfl

/-- Settles O18: the row of the opcode map, and the response that carries the frame the first byte selects. -/
theorem defaultFrameByFirstByte : Obligations.DefaultFrameByFirstByte := by
  obtain ⟨-, -, -, -, -, -, -, -, hselector, -⟩ := opcodeMapSelectsByLowFourBits
  exact ⟨hselector, fun id s => ⟨fun htext => ⟨_, defaultFrame_of_text htext, exec_defaultFrame id s⟩,
    fun hother => ⟨_, defaultFrame_of_other hother, exec_defaultFrame id s⟩⟩⟩

/-! ### TEXT_PAYLOAD -/

/-- The type check comes first (43_frame.md R158). -/
theorem textPayload_of_not_text {f : FrameRecord} (h : f.fh.type ≠ .text) : textPayload f = failed .notText := by
  unfold textPayload
  cases ht : f.fh.type with
  | text => exact absurd ht h
  | other => rfl

/-- The completeness check comes second (43_frame.md R158). -/
theorem textPayload_of_not_complete {f : FrameRecord} (ht : f.fh.type = .text) (h : f.st ≠ .complete) :
    textPayload f = failed .notComplete := by
  unfold textPayload
  rw [ht]
  cases hst : f.st with
  | complete => exact absurd hst h
  | addingData => rfl

/-- A COMPLETE TEXT frame of size 0 has no selector and no text (43_frame.md R158). -/
theorem textPayload_of_nil {f : FrameRecord} (ht : f.fh.type = .text) (hst : f.st = .complete) (hd : f.data = []) :
    textPayload f = textResponse .none [] := by
  simp only [textPayload, ht, hst, hd]

/-- The bytes after the selector, with the frame's encoding (43_frame.md R158, R160). -/
theorem textPayload_of_cons {f : FrameRecord} {b : Byte} {bs : List Byte} (ht : f.fh.type = .text)
    (hst : f.st = .complete) (hd : f.data = b :: bs) : textPayload f = textResponse f.enc bs := by
  simp only [textPayload, ht, hst, hd]

/-- Settles O20: the row of the opcode map, and the response to each of the four outcomes of `textPayload` on the
presented frame. -/
theorem textPayloadHandsOverBytesAfterSelector : Obligations.TextPayloadHandsOverBytesAfterSelector := by
  obtain ⟨-, -, -, -, -, -, -, -, -, -, hselector, -⟩ := opcodeMapSelectsByLowFourBits
  refine ⟨hselector, fun s => ?_⟩
  rw [exec_textPayload]
  refine ⟨fun hnot => ?notText, fun ht hopen => ?incomplete, fun ht hst hd => ?empty, fun b bs ht hst hd => ?text⟩
  case notText => rw [textPayload_of_not_text hnot]; rfl
  case incomplete => rw [textPayload_of_not_complete ht hopen]; rfl
  case empty => rw [textPayload_of_nil ht hst hd]; rfl
  case text => rw [textPayload_of_cons ht hst hd]; rfl

end Sys2Proof.Machine
end

section
/-! SUPPORT. The tag state machine's actions but for the tenth header byte, its counter, and FRAME_LOOKUP as a command
(44_tag.md R172, R173, R178 to R182, R190). -/

namespace Sys2Proof.Machine

/-! ### FRAME_LOOKUP -/

/-- The linear search stops at the first frame of that identifier (44_tag.md R190). -/
theorem getFrame_of_first {r : TagRecord} {id : FrameId} {before after : List FrameRecord} {f : FrameRecord}
    (hr : r.frames = before ++ f :: after) (hf : f.fh.id = id) (hbefore : ∀ g ∈ before, g.fh.id ≠ id) :
    getFrame r id = f := by
  have hfind : (r.frames.find? fun g => decide (g.fh.id = id)) = some f :=
    List.find?_eq_some_iff_append.mpr ⟨decide_eq_true hf, before, after, hr, by simpa using hbefore⟩
  simp only [getFrame, hfind]

/-- The search of a record with no such frame ends in the default frame (44_tag.md R190). -/
theorem getFrame_of_absent {r : TagRecord} {id : FrameId} (h : ∀ g ∈ r.frames, g.fh.id ≠ id) :
    getFrame r id = defaultFrame id := by
  have hfind : (r.frames.find? fun g => decide (g.fh.id = id)) = none :=
    List.find?_eq_none.mpr (by simpa using h)
  simp only [getFrame, hfind]

/-- Settles O19: the row of the opcode map, and the response that carries the frame the search ends in. -/
theorem frameLookupFindsFirstOrDefault : Obligations.FrameLookupFindsFirstOrDefault := by
  obtain ⟨-, -, -, -, -, -, -, -, -, hselector, -⟩ := opcodeMapSelectsByLowFourBits
  refine ⟨hselector, fun id s => ⟨fun before after f hr hf hbefore => ?found, fun habsent => ?absent⟩⟩
  case found =>
    rw [exec_frameLookup, getFrame_of_first hr hf hbefore]
    rfl
  case absent =>
    refine ⟨_, ?_, exec_defaultFrame id s⟩
    rw [exec_frameLookup, getFrame_of_absent habsent]
    rfl

/-! ### The state action of each state

The dispatch of 44_tag.md R171, then each action on the bytes that build no frame header. -/

section
variable {P : Params} {t : TagContext} {b : Byte}

theorem stateAction_of_creating (h : t.st = .creatingFrameHeader) : stateAction P t b = creatingAction P t b := by
  rw [stateAction, h]

theorem stateAction_of_adding (h : t.st = .addingFrameBytes) : stateAction P t b = addingAction t b := by
  rw [stateAction, h]

theorem stateAction_of_padding (h : t.st = .padding) : stateAction P t b = paddingAction t b := by
  rw [stateAction, h]

/-- A COMPLETE tag takes no byte (44_tag.md R180). -/
theorem stateAction_of_complete (h : t.st = .complete) : stateAction P t b = .error (tagErr .tagAlreadyComplete) := by
  rw [stateAction, h]

/-- A 0x00 with nothing pending starts the padding (44_tag.md R172). -/
theorem creatingAction_of_zero (hp : t.pend = []) (hb : b = 0x00) :
    creatingAction P t b = .ok { t with st := .padding } :=
  if_pos ⟨List.length_eq_zero_iff.mpr hp, hb⟩

/-- Every other byte is buffered, a 0x00 with bytes pending too; nothing else happens before the tenth (44_tag.md R172,
R173). -/
theorem creatingAction_of_buffered (hb : ¬ (t.pend = [] ∧ b = 0x00)) (hp : t.pend.length ≠ 9) :
    creatingAction P t b = .ok { t with pend := t.pend ++ [b] } := by
  have hstay : ¬ (t.pend.length = 0 ∧ b = 0x00) := by rwa [List.length_eq_zero_iff]
  have hshort : (t.pend ++ [b]).length ≠ hdrLen := by
    rw [List.length_append, List.length_singleton, hdrLen]
    omega
  rw [creatingAction, if_neg hstay]
  exact if_neg hshort

/-- With no frame there is none to take the byte (44_tag.md R178). -/
theorem addingAction_of_nil (h : t.frames = []) : addingAction t b = .error (tagErr .noFrame) := by
  rw [addingAction, h]
  rfl

/-- The last frame takes the byte; its error is the tag's, and the other frames stay (44_tag.md R178). -/
theorem addingAction_of_concat {fs : List FrameRecord} {f : FrameRecord} (h : t.frames = fs ++ [f]) :
    addingAction t b = (frameAddByte f b).map fun g =>
      { t with frames := fs ++ [g], st := if g.st = .complete then .creatingFrameHeader else t.st } := by
  simp only [addingAction, h, List.getLast?_concat, List.dropLast_concat]
  cases frameAddByte f b <;> rfl

end

/-- Settles O29: the action of each of the three states, on the bytes that build no frame header. -/
theorem paddingAndBufferActions : Obligations.PaddingAndBufferActions := by
  intro P t b
  refine ⟨fun hst hp hb => ?starts, fun hst hb hp => ?buffers, fun hst hb => ?pads, fun hst hb => ?nonzero,
    stateAction_of_complete⟩
  case starts => rw [stateAction_of_creating hst, creatingAction_of_zero hp hb]
  case buffers => rw [stateAction_of_creating hst, creatingAction_of_buffered hb hp]
  case pads => rw [stateAction_of_padding hst, paddingAction, if_pos hb]
  case nonzero =>
    rw [stateAction_of_padding hst, paddingAction, if_neg hb]
    rfl

/-- Settles O31: the action of ADDING_FRAME_BYTES with no frame, and on what the last frame answers. -/
theorem frameByteGoesToTheLastFrame : Obligations.FrameByteGoesToTheLastFrame := by
  intro P t b hst
  rw [stateAction_of_adding hst]
  refine ⟨addingAction_of_nil, fun fs f hframes => ?_⟩
  rw [addingAction_of_concat hframes]
  refine ⟨fun e hadd => ?error, fun g hadd => ?taken⟩
  case error => rw [hadd]; rfl
  case taken => rw [hadd, hst]; rfl

/-! ### The counter -/

section
variable {P : Params} {t u : TagContext} {b : Byte}

/-- A byte whose state action raised is not counted (44_tag.md R181, R182). -/
theorem tagFeed_of_error {e : TagError} (h : stateAction P t b = .error e) : tagFeed P t b = .error e := by
  rw [tagFeed, h]

/-- A byte whose state action did not raise is counted (44_tag.md R181, R182). -/
theorem tagFeed_of_counted (h : stateAction P t b = .ok u) : tagFeed P t b = countByte u := by
  rw [tagFeed, h]

/-- The byte that makes the count the tag's size fails on an open last frame (44_tag.md R181). -/
theorem countByte_of_open_frame {fs : List FrameRecord} {f : FrameRecord} (hn : t.cnt + 1 = t.hdr.size.toNat)
    (hf : t.frames = fs ++ [f]) (hopen : f.st ≠ .complete) :
    countByte t = .error (tagErr .frameIncompleteAtTagEnd) := by
  have hlast := lastFrameIncomplete_concat { t with cnt := t.cnt + 1 } fs f hf
  simp only [countByte, if_pos hn, hlast, decide_eq_true hopen, if_true]

/-- The byte that makes the count the tag's size completes a tag with no frames (44_tag.md R181). -/
theorem countByte_of_no_frame (hn : t.cnt + 1 = t.hdr.size.toNat) (hf : t.frames = []) :
    countByte t = .ok { t with cnt := t.cnt + 1, st := .complete } := by
  have hlast := lastFrameIncomplete_nil { t with cnt := t.cnt + 1 } hf
  simp only [countByte, if_pos hn, hlast, Bool.false_eq_true, if_false]

end

/-- Settles O32: the four outcomes of a fed byte, by what its state action answers, the count and the last frame. -/
theorem counterForcesCompletion : Obligations.CounterForcesCompletion := by
  intro P t b
  refine ⟨fun e => tagFeed_of_error, fun u haction => ⟨tagFeed_of_ok haction, fun hn => ⟨?incomplete, ?complete⟩⟩⟩
  case incomplete =>
    intro fs f hf hopen
    rw [tagFeed_of_counted haction]
    exact countByte_of_open_frame hn hf hopen
  case complete =>
    rintro (hnil | ⟨fs, f, hf, hwhole⟩)
    · rw [tagFeed_of_counted haction, countByte_of_no_frame hn hnil]
    · exact tagFeed_of_last haction hn hf hwhole

end Sys2Proof.Machine
end

section
/-! SUPPORT. READ_STATUS as a command (45_scanner.md R209). -/

namespace Sys2Proof.Machine

/-- A field of m bits below x is an addend when its value fits in m bits. -/
theorem append_ofNat_toNat {n m k : Nat} (x : BitVec n) (h : k < 2 ^ m) :
    (x ++ BitVec.ofNat m k).toNat = x.toNat * 2 ^ m + k := by
  rw [BitVec.toNat_append, BitVec.toNat_ofNat, Nat.mod_eq_of_lt h, ← Nat.shiftLeft_add_eq_or_of_lt h,
    Nat.shiftLeft_eq]

/-- The three fields of STATUS as arithmetic: the count is saturated to its 24 bits, and a start below 10 and a fill of
at most 10 fit in 4 bits, so no field is cut (45_scanner.md R209). -/
theorem statusWord_toNat (s : Block) : (statusWord s).toNat =
    min s.openTags.length (2 ^ 24 - 1) * 2 ^ 8 + s.rbStart.val * 2 ^ 4 + s.rbFill.val := by
  have hcount : min s.openTags.length (2 ^ 24 - 1) < 2 ^ 24 := by omega
  have hstart : s.rbStart.val < 2 ^ 4 := s.rbStart.isLt.trans (by decide)
  have hfill : s.rbFill.val < 2 ^ 4 := s.rbFill.isLt.trans (by decide)
  have hfields : (statusWord s).toNat =
      (min s.openTags.length (2 ^ 24 - 1) * 2 ^ 4 + s.rbStart.val) * 2 ^ 4 + s.rbFill.val := by
    refine (append_ofNat_toNat _ hfill).trans ?_
    rw [append_ofNat_toNat _ hstart, BitVec.toNat_ofNat, Nat.mod_eq_of_lt hcount]
  omega

/-- Settles O21: the row of the opcode map, and the status word that READ_STATUS answers. -/
theorem readStatusPacksFillStartAndOpenCount : Obligations.ReadStatusPacksFillStartAndOpenCount := by
  obtain ⟨-, -, -, -, -, -, -, -, -, -, -, hselector, -⟩ := opcodeMapSelectsByLowFourBits
  exact ⟨hselector, fun s => ⟨_, statusWord_toNat s.blk, exec_readStatus s⟩⟩

end Sys2Proof.Machine
end

section
/-! SUPPORT. Encoding and decoding command words (30_encoding.md R72, R75, R79). -/

namespace Sys2Proof

/-! ### Decoding an encoded command -/

/-- The command word of a command selects the command's operation (30_encoding.md R75). -/
theorem opField_encode (i : Instr) : (encode i).opField = i.op.code := by
  cases i <;> exact opField_packBytes ..

theorem ofCode_opField_encode (i : Instr) : Op.ofCode (encode i).opField = i.op := by
  rw [opField_encode, ofCode_code]

/-- The identifier of a word packed from an identifier's bytes (30_encoding.md R72). -/
theorem frameId_packBytes (op : Op) (start : BitVec 4) (id : FrameId) :
    (packBytes op start id.bytes).frameId = id := by
  simp [Cmd.frameId, FrameId.bytes]

/-- A well-formed window is ten bytes long (30_encoding.md R72, R74). -/
theorem windowOk_iff (w : List Byte) : windowOk w = true ↔ w.length = 10 := by
  simp [windowOk]

/-- Settles O1: the encoded selector picks the arm of `decode`, and each operand field is read back from the packed
word. -/
theorem decodeOfEncodeIsTheCommand : Obligations.DecodeOfEncodeIsTheCommand := by
  intro i hwf
  have hop := ofCode_opField_encode i
  unfold decode
  rw [hop]
  cases i with
  | byteIn | decodeInt | decodeSyncsafe => simp [Instr.op, encode]
  | tagHdrCheck _ w | frameHdrCheck w | tagHdrDecode _ w | frameHdrDecode w =>
    have hwindow := fun op start => window_packBytes op start w ((windowOk_iff w).mp hwf)
    simp [Instr.op, encode, hwindow]
  | defaultFrame | frameLookup => simp [Instr.op, encode, frameId_packBytes]
  | _ => rfl

/-! ### What decoding reads -/

/-- Two words that agree on a run of bits have the same field there. -/
theorem extractLsb'_congr {c d : Cmd} {lo len : Nat}
    (h : ∀ k, lo ≤ k → k < lo + len → c.getLsbD k = d.getLsbD k) : c.extractLsb' lo len = d.extractLsb' lo len := by
  apply BitVec.eq_of_getLsbD_eq
  intro i hi
  simp only [BitVec.getLsbD_extractLsb', hi, h (lo + i) (Nat.le_add_right ..) (Nat.add_lt_add_left hi lo)]

/-- Two words that agree from bit 16 up to a bound have in common each operand byte below it (30_encoding.md R72). -/
theorem byteField_congr {c d : Cmd} {hi p : Nat} (h : ∀ k, 16 ≤ k → k < hi → c.getLsbD k = d.getLsbD k)
    (hp : 8 * p + 24 ≤ hi) : c.byteField p = d.byteField p :=
  extractLsb'_congr fun k hlo hlt => h k (by omega) (by omega)

/-- The identifier operand is read from bits 16 to 47 (30_encoding.md R72). -/
theorem frameId_congr {c d : Cmd} (h : ∀ k, 16 ≤ k → k < 48 → c.getLsbD k = d.getLsbD k) :
    c.frameId = d.frameId := by
  simp only [Cmd.frameId, byteField_congr h (show 8 * 0 + 24 ≤ 48 by omega),
    byteField_congr h (show 8 * 1 + 24 ≤ 48 by omega), byteField_congr h (show 8 * 2 + 24 ≤ 48 by omega),
    byteField_congr h (show 8 * 3 + 24 ≤ 48 by omega)]

/-- The window operand is the ten operand bytes (30_encoding.md R72). -/
theorem window_eq_map (c : Cmd) : c.window = (List.range 10).map c.byteField := rfl

/-- The window operand is read from bits 16 to 95 (30_encoding.md R72). -/
theorem window_congr {c d : Cmd} (h : ∀ k, 16 ≤ k → k < 96 → c.getLsbD k = d.getLsbD k) : c.window = d.window := by
  rw [window_eq_map, window_eq_map]
  refine List.map_congr_left fun p hp => byteField_congr h ?_
  have := List.mem_range.mp hp
  omega

/-- Settles O2: the selectors agree, so both words take the same arm of `decode`, and that arm reads only the fields the
words agree on. -/
theorem decodeReadsOnlyNamedFields : Obligations.DecodeReadsOnlyNamedFields := by
  intro c d hsel hstart hbyte hfour hten
  have hop : c.opField = d.opField := extractLsb'_congr fun k _ hlt => hsel k (by omega)
  rw [op_decode] at hstart hbyte hfour hten
  unfold decode
  rw [← hop]
  cases hc : Op.ofCode c.opField with
  | byteIn => simp only [byteField_congr (hbyte hc) (p := 0) (by omega)]
  | decodeInt | decodeSyncsafe =>
    have hbytes := hfour (by simp [hc])
    simp only [byteField_congr hbytes (p := 0) (by omega), byteField_congr hbytes (p := 1) (by omega),
      byteField_congr hbytes (p := 2) (by omega), byteField_congr hbytes (p := 3) (by omega)]
  | tagHdrCheck | tagHdrDecode =>
    have hs : c.startField = d.startField := extractLsb'_congr (hstart (by simp [hc]))
    simp only [hs, window_congr (hten (by simp [hc]))]
  | frameHdrCheck | frameHdrDecode => simp only [window_congr (hten (by simp [hc]))]
  | defaultFrame | frameLookup => simp only [frameId_congr (hfour (by simp [hc]))]
  | _ => rfl

/-! ### The fields of a word -/

/-- A field of a word as a number. -/
theorem extractLsb'_toNat_eq (c : Cmd) (lo len : Nat) :
    (c.extractLsb' lo len).toNat = c.toNat / 2 ^ lo % 2 ^ len := by
  rw [BitVec.extractLsb'_toNat, Nat.shiftRight_eq_div_pow]

/-- Settles O3: each field is a run of bits, read as a number. -/
theorem commandFieldsAreTheirBits : Obligations.CommandFieldsAreTheirBits := fun c =>
  ⟨opField_toNat c, extractLsb'_toNat_eq c 4 4, extractLsb'_toNat_eq c 8 8,
    fun p _ => extractLsb'_toNat_eq c (8 * p + 16) 8, window_eq_map c, rfl⟩

/-- Settles O5: the decoder run on each of the sixteen words. -/
theorem decodedWordsOfTheOpcodeMap : Obligations.DecodedWordsOfTheOpcodeMap := by
  unfold Obligations.DecodedWordsOfTheOpcodeMap
  decide

end Sys2Proof
end

section
/-! SUPPORT. Steps and commands as state updates: what each command leaves, taking the next input, FEED, RESET and the
reserved operations (30_encoding.md R70, R73, R79, R82; 70_reset_and_hazards.md R250). -/

namespace Sys2Proof.Machine

/-! ### What a command can do -/

/-- BYTE_IN leaves the block `byteIn` gives and its events, and answers OK (45_scanner.md R201). -/
theorem exec_byteIn (b : Byte) (s : State) :
    exec (.byteIn b) s = .next (commit s (byteIn s.cfg s.blk b) Response.okay) := rfl

/-- RESET leaves the reset block and answers OK (70_reset_and_hazards.md R250). -/
theorem exec_reset (s : State) : exec .reset s = .next (commit s (resetBlock s.blk) Response.okay) := rfl

/-- Everything a command can do: BYTE_IN and RESET leave a block and its events, every other command leaves a response
alone (30_encoding.md R73). -/
theorem exec_cases (i : Instr) (s : State) :
    (∃ b, exec i s = .next (commit s (byteIn s.cfg s.blk b) Response.okay)) ∨
    exec i s = .next (commit s (resetBlock s.blk) Response.okay) ∨
    (∃ r, exec i s = .next (respond s r)) := by
  cases i with
  | byteIn b => exact .inl ⟨b, exec_byteIn b s⟩
  | reset => exact .inr (.inl (exec_reset s))
  | _ => exact .inr (.inr ⟨_, rfl⟩)

/-- Every command completes and leaves the build parameters and the inputs to come (60_exceptions.md R225;
70_reset_and_hazards.md R253). -/
theorem exec_completes (i : Instr) (s : State) :
    ∃ t, exec i s = .next t ∧ t.cfg = s.cfg ∧ t.input = s.input := by
  rcases exec_cases i s with ⟨b, h⟩ | h | ⟨r, h⟩ <;> exact ⟨_, h, rfl, rfl⟩

/-! ### What a step takes -/

theorem step_of_nil {s : State} (h : s.input = []) : step s = .next s := by
  simp only [step, takeInput, h, idle]

theorem step_of_command {s : State} {cmd : Cmd} {r : TagRecord} {f : FrameRecord} {rest : List HostInput}
    (h : s.input = .command cmd r f :: rest) : step s = exec (decode cmd) (acceptCommand s r f rest) := by
  simp only [step, takeInput, h]

theorem step_of_resetPin {s : State} {rest : List HostInput} (h : s.input = .resetPin :: rest) :
    step s = exec .reset (acceptResetPin s rest) := by
  simp only [step, takeInput, h]

/-- Everything a step can take: nothing, or a command to run in a state that differs in its inputs alone
(30_encoding.md R70). -/
theorem step_cases (s : State) :
    (s.input = [] ∧ step s = .next s) ∨
    (∃ i s1, step s = exec i s1 ∧ s1.cfg = s.cfg ∧ s1.blk = s.blk ∧ s1.evtOut = s.evtOut ∧
      s1.input = s.input.tail) := by
  rcases h : s.input with _ | ⟨⟨cmd, r, f⟩ | _, rest⟩
  · exact .inl ⟨rfl, step_of_nil h⟩
  · exact .inr ⟨_, _, step_of_command h, rfl, rfl, rfl, rfl⟩
  · exact .inr ⟨_, _, step_of_resetPin h, rfl, rfl, rfl, rfl⟩

/-- Settles O6: the command word presented first is the one taken. -/
theorem stepRunsTheDecodedCommand : Obligations.StepRunsTheDecodedCommand := by
  rintro s cmd r f rest i h rfl
  exact step_of_command h

/-- Settles O7: nothing is taken. -/
theorem stepWithNothingPresentedChangesNothing : Obligations.StepWithNothingPresentedChangesNothing :=
  fun _ => step_of_nil

/-- Settles O8: a step takes nothing, or runs a command, which completes. -/
theorem everyStepCompletes : Obligations.EveryStepCompletes := by
  intro s
  rcases step_cases s with ⟨hnil, hstep⟩ | ⟨i, s1, hstep, hcfg, -, -, hinput⟩
  · exact ⟨s, hstep, rfl, by rw [hnil, List.tail_nil]⟩
  · obtain ⟨t, hexec, htcfg, htinput⟩ := exec_completes i s1
    exact ⟨t, hstep.trans hexec, htcfg.trans hcfg, htinput.trans hinput⟩

/-! ### RESET and the reserved operations -/

/-- Settles O22: the four commands answer ILLEGAL_OP through `respond`, and the four selectors are their rows of the
opcode map. -/
theorem reservedOperationsAnswerIllegalOp : Obligations.ReservedOperationsAnswerIllegalOp := by
  obtain ⟨h0, -, -, -, -, -, -, -, -, -, -, -, hC, hD, hE, -⟩ := opcodeMapSelectsByLowFourBits
  constructor
  · intro i s hi
    simp only [List.mem_cons, List.not_mem_nil, or_false] at hi
    rcases hi with rfl | rfl | rfl | rfl <;> rfl
  · intro c hc
    simp only [List.mem_cons, List.not_mem_nil, or_false] at hc
    rcases hc with h | h | h | h
    · simp [h0 c h]
    · simp [hC c h]
    · simp [hD c h]
    · simp [hE c h]

/-- Settles O24: the row of the opcode map, the pin's step, and the fields of the reset block. -/
theorem resetRestoresTheInitialBlock : Obligations.ResetRestoresTheInitialBlock := by
  obtain ⟨-, -, -, -, -, -, -, -, -, -, -, -, -, -, -, hselector⟩ := opcodeMapSelectsByLowFourBits
  exact ⟨hselector, fun s rest h => step_of_resetPin h,
    fun s => ⟨resetBlock s.blk, exec_reset s, Vector.toList_replicate, rfl, rfl, rfl, rfl, rfl⟩⟩

/-! ### FEED -/

/-- A field appended below x is an addend. -/
theorem append_toNat {n m : Nat} (x : BitVec n) (y : BitVec m) :
    (x ++ y).toNat = x.toNat * 2 ^ m + y.toNat := by
  rw [BitVec.toNat_append, ← Nat.shiftLeft_add_eq_or_of_lt y.isLt, Nat.shiftLeft_eq]

/-- A packed command word as a number: the operand bytes above `rsv`, `start` and `op` (30_encoding.md R72). -/
theorem packCommand_toNat (op start : BitVec 4) (rsv b0 b1 b2 b3 b4 b5 b6 b7 b8 b9 : Byte) :
    (packCommand op start rsv b0 b1 b2 b3 b4 b5 b6 b7 b8 b9).toNat =
      (((b9 ++ b8 ++ b7 ++ b6 ++ b5 ++ b4 ++ b3 ++ b2 ++ b1 ++ b0 : BitVec 80).toNat * 2 ^ 8 + rsv.toNat) * 2 ^ 4 +
        start.toNat) * 2 ^ 4 + op.toNat := by
  refine (append_toNat (n := 92) _ op).trans (congrArg (· * 2 ^ 4 + op.toNat) ?_)
  refine (append_toNat (n := 88) _ start).trans (congrArg (· * 2 ^ 4 + start.toNat) ?_)
  exact append_toNat (n := 80) _ rsv

/-- The word of BYTE_IN: its byte above selector 1, every other field 0 (30_encoding.md R82). -/
theorem encode_byteIn_toNat (b : Byte) : (encode (.byteIn b)).toNat = b.toNat * 2 ^ 16 + 1 := by
  have hoperands : (0#72 ++ b : BitVec 80).toNat = b.toNat :=
    (append_toNat (n := 72) 0#72 b).trans (by simp)
  have hzeros : (0#8 ++ 0#8 ++ 0#8 ++ 0#8 ++ 0#8 ++ 0#8 ++ 0#8 ++ 0#8 ++ 0#8 : BitVec 72) = 0#72 := rfl
  have hword := packCommand_toNat Op.byteIn.code 0#4 0#8 b 0#8 0#8 0#8 0#8 0#8 0#8 0#8 0#8 0#8
  rw [hzeros, hoperands] at hword
  refine hword.trans ?_
  simp only [Op.code, BitVec.toNat_ofNat]
  omega

/-- The first byte of a FEED is a BYTE_IN transaction, after which the rest of the FEED stands first (30_encoding.md
R82). -/
theorem step_of_feed {s : State} {b : Byte} {bs : List Byte} {rest : List HostInput}
    (h : s.input = feed (b :: bs) ++ rest) :
    ∃ t, step s = .next t ∧ t.evtOut = (byteIn s.cfg s.blk b).events ∧ t.blk = byteIn s.cfg s.blk b ∧
      t.cfg = s.cfg ∧ t.input = feed bs ++ rest := by
  have hdecode : decode (encode (.byteIn b)) = .byteIn b := decodeOfEncodeIsTheCommand (.byteIn b) rfl
  have hstep := step_of_command (s := s) (rest := feed bs ++ rest) h
  rw [hdecode, exec_byteIn] at hstep
  exact ⟨_, hstep, rfl, rfl, rfl, rfl⟩

/-- Settles O9: the word of BYTE_IN, and an induction over the bytes of the FEED. -/
theorem feedRunsItsBytesInOrder : Obligations.FeedRunsItsBytesInOrder := by
  refine ⟨encode_byteIn_toNat, fun s bs rest h => ?_⟩
  induction bs generalizing s with
  | nil => exact ⟨rfl, s, rfl, rfl, h, rfl⟩
  | cons b bs ih =>
    obtain ⟨t, hstep, hevt, hblk, hcfg, hinput⟩ := step_of_feed h
    obtain ⟨hevents, u, hsteps, hublk, huinput, hucfg⟩ := ih t hinput
    rw [hcfg, hblk] at hevents hublk
    refine ⟨?_, u, ?_, hublk, huinput, hucfg.trans hcfg⟩
    · simp only [List.length_cons, eventsOfSteps, hstep, hevents, hevt, feedEvents]
    · simp only [List.length_cons, steps, hstep, hsteps]

end Sys2Proof.Machine
end

section
/-! SUPPORT. FRAME_HDR_DECODE as a command, and that its record determines the header's bytes (42_header_decode.md R133
to R135). -/

namespace Sys2Proof.Machine

/-! ### The command -/

/-- Settles O16: the row of the opcode map, and the response to each outcome of the decode, the record being the one
extracted from the window. -/
theorem frameHeaderDecodeExtractsFields : Obligations.FrameHeaderDecodeExtractsFields := by
  obtain ⟨-, -, -, -, -, -, -, hselector, -⟩ := opcodeMapSelectsByLowFourBits
  refine ⟨hselector, fun w s => ?_⟩
  rw [exec_frameHdrDecode]
  rcases frameHeaderDecode_cases s.cfg.flagMap w with ⟨hbad, hdecode⟩ | ⟨hlen, hshape, hdecode⟩ <;> rw [hdecode]
  · exact ⟨fun _ => rfl, fun hlen hshape => absurd ⟨hlen, hshape⟩ hbad⟩
  · have hflags := extractFrameHeader_flags s.cfg.flagMap w
    refine ⟨fun hbad => absurd ⟨hlen, hshape⟩ hbad, fun _ _ => ⟨_, extractFrameHeader_fields _ w, hflags, ?_, rfl⟩⟩
    intro hdefault
    rw [hdefault] at hflags ⊢
    exact (frameFlagsOf_id3v23 w _).mp hflags

/-! ### The record determines its bytes -/

/-- Ten bytes of a frame header decode (42_header_decode.md R133). -/
theorem frameHeaderDecode_of_shape {m : FrameFlagMap} {w : List Byte} (hlen : w.length = 10)
    (hshape : FrameHeaderShape w) : frameHeaderDecode m w = .ok (extractFrameHeader m w) := by
  rcases frameHeaderDecode_cases m w with ⟨hbad, -⟩ | ⟨-, -, hdecode⟩
  · exact absurd ⟨hlen, hshape⟩ hbad
  · exact hdecode

/-- A window that decodes is ten bytes of a frame header, and its record is the extracted one (42_header_decode.md
R133). -/
theorem frameHeaderDecode_ok {m : FrameFlagMap} {w : List Byte} {fh : FrameHeader}
    (h : frameHeaderDecode m w = .ok fh) : w.length = 10 ∧ FrameHeaderShape w ∧ fh = extractFrameHeader m w := by
  rcases frameHeaderDecode_cases m w with ⟨-, hdecode⟩ | ⟨hlen, hshape, hdecode⟩ <;> rw [hdecode] at h <;> cases h
  exact ⟨hlen, hshape, rfl⟩

/-- Six different places are all six free bits: the map leaves none out (42_header_decode.md R134). -/
theorem mem_flagMap_of_wf {m : FrameFlagMap} (h : m.wf = true) (p : FlagPos) :
    p ∈ [m.tap, m.fap, m.ro, m.comp, m.encr, m.grp] := by
  have hnodup : [m.tap, m.fap, m.ro, m.comp, m.encr, m.grp].Nodup := by simpa [FrameFlagMap.wf] using h
  have hall : ∀ q : FlagPos, q ∈ [.pos8bit7, .pos8bit6, .pos8bit5, .pos9bit7, .pos9bit6, .pos9bit5] := by
    intro q; cases q <;> decide
  have hperm := (hnodup.subperm fun q _ => hall q).perm_of_length_le le_rfl
  exact hperm.mem_iff.mpr (hall p)

/-- Under a legal map, equal records have every free bit in common (42_header_decode.md R134). -/
theorem frameFlag_eq_of_extract_eq {m : FrameFlagMap} {w v : List Byte} (hm : m.wf = true)
    (h : extractFrameHeader m w = extractFrameHeader m v) (p : FlagPos) :
    frameFlag p (byteAt w 8) (byteAt w 9) = frameFlag p (byteAt v 8) (byteAt v 9) := by
  simp only [extractFrameHeader, FrameHeader.mk.injEq] at h
  obtain ⟨-, -, htap, hfap, hro, hcomp, hencr, hgrp, -⟩ := h
  have hp := mem_flagMap_of_wf hm p
  simp only [List.mem_cons, List.not_mem_nil, or_false] at hp
  rcases hp with rfl | rfl | rfl | rfl | rfl | rfl <;> assumption

/-- A flag byte whose low five bits are 0 is determined by its three free bits (41_header_validators.md R117). -/
theorem byte_eq_of_free_bits {x y : Byte} (hx : x.toNat % 32 = 0) (hy : y.toNat % 32 = 0)
    (h7 : bitSet x 7 = bitSet y 7) (h6 : bitSet x 6 = bitSet y 6) (h5 : bitSet x 5 = bitSet y 5) : x = y := by
  rw [Bool.eq_iff_iff, bitSet_iff, bitSet_iff] at h7 h6 h5
  have := x.isLt
  have := y.isLt
  apply BitVec.eq_of_toNat_eq
  omega

/-- The four bytes of a big-endian integer are determined by it (40_field_decoders.md R100). -/
theorem decodeInteger_inj {a0 a1 a2 a3 b0 b1 b2 b3 : Byte}
    (h : decodeInteger a0 a1 a2 a3 = decodeInteger b0 b1 b2 b3) : a0 = b0 ∧ a1 = b1 ∧ a2 = b2 ∧ a3 = b3 := by
  have hsum := congrArg BitVec.toNat h
  rw [decodeInteger_toNat, decodeInteger_toNat] at hsum
  simp only [← BitVec.toNat_inj]
  omega

/-- Windows of ten bytes that agree byte by byte are equal. -/
theorem window_ext {w v : List Byte} (hw : w.length = 10) (hv : v.length = 10)
    (h : ∀ p < 10, byteAt w p = byteAt v p) : w = v := by
  refine List.ext_getElem (hw.trans hv.symm) fun p hpw hpv => ?_
  simpa [byteAt, hpw, hpv] using h p (hw ▸ hpw)

/-- Under a legal map a frame header's record determines its ten bytes (42_header_decode.md R134). -/
theorem extractFrameHeader_inj {m : FrameFlagMap} {w v : List Byte} (hm : m.wf = true) (hw : w.length = 10)
    (hv : v.length = 10) (hws : FrameHeaderShape w) (hvs : FrameHeaderShape v)
    (h : extractFrameHeader m w = extractFrameHeader m v) : w = v := by
  have hflag := frameFlag_eq_of_extract_eq hm h
  simp only [extractFrameHeader, FrameHeader.mk.injEq, FrameId.mk.injEq] at h
  obtain ⟨⟨h0, h1, h2, h3⟩, hsize, -⟩ := h
  obtain ⟨h4, h5, h6, h7⟩ := decodeInteger_inj hsize
  obtain ⟨-, -, -, -, hw8, hw9⟩ := hws
  obtain ⟨-, -, -, -, hv8, hv9⟩ := hvs
  have h8 := byte_eq_of_free_bits hw8 hv8 (hflag .pos8bit7) (hflag .pos8bit6) (hflag .pos8bit5)
  have h9 := byte_eq_of_free_bits hw9 hv9 (hflag .pos9bit7) (hflag .pos9bit6) (hflag .pos9bit5)
  refine window_ext hw hv fun p hp => ?_
  interval_cases p <;> assumption

/-- Settles O17: the record is the extracted one, whose flags stand where the map puts them and which determines the
window. -/
theorem frameHeaderRecordDeterminesItsBytes : Obligations.FrameHeaderRecordDeterminesItsBytes := by
  intro m w fh hw
  obtain ⟨hwlen, hwshape, rfl⟩ := frameHeaderDecode_ok hw
  refine ⟨extractFrameHeader_flags m w, fun hm v hv => ?_⟩
  obtain ⟨hvlen, hvshape, heq⟩ := frameHeaderDecode_ok hv
  exact extractFrameHeader_inj hm hwlen hvlen hwshape hvshape heq

end Sys2Proof.Machine
end

section
/-! SUPPORT. The invariant of a state: it holds after reset and every step keeps it, and what it says of the events of
BYTE_IN (10_state.md R24; 44_tag.md R183, R189, R191; 60_exceptions.md R226). -/

namespace Sys2Proof.Machine

/-! ### The invariant is kept -/

/-- The reset block meets the invariant, whatever the build: nothing is held and nothing is open (10_state.md R35). -/
theorem resetBlock_inv (P : Params) (b : Block) : (resetBlock b).Inv P :=
  ⟨⟨rfl, fun _ => rfl⟩, by simp [resetBlock], by simp [resetBlock]⟩

/-- Settles O45: the reset state has the reset block and no event. -/
theorem invariantHoldsAfterReset : Obligations.InvariantHoldsAfterReset :=
  ⟨resetBlock_inv defaultParams Block.reset, by simp [State.reset, Block.reset], by simp [State.reset]⟩

/-- A transaction that leaves a block with the invariant and legal events keeps the invariant of the state. -/
theorem commit_inv {s : State} {b : Block} (r : Response) (hb : b.Inv s.cfg) (he : ∀ e ∈ b.events, e.Legal s.cfg) :
    (commit s b r).Inv :=
  ⟨hb, he, he⟩

/-- A transaction that writes no block state keeps the invariant of the state (30_encoding.md R73). -/
theorem respond_inv {s : State} (r : Response) (hi : s.Inv) : (respond s r).Inv :=
  ⟨hi.blk, hi.events, by simp⟩

/-- Every command keeps the invariant of the state. -/
theorem exec_keeps {i : Instr} {s t : State} (hi : s.Inv) (h : exec i s = .next t) : t.Inv := by
  rcases exec_cases i s with ⟨b, he⟩ | he | ⟨r, he⟩ <;> rw [he] at h <;> cases h
  · obtain ⟨hblk, hevents⟩ := byteIn_keeps hi.blk b
    exact commit_inv _ hblk hevents
  · exact commit_inv _ (resetBlock_inv ..) (by simp [resetBlock])
  · exact respond_inv r hi

/-- Settles O46: a step takes nothing, or runs a command in a state that differs in its inputs alone. -/
theorem everyStepKeepsTheInvariant : Obligations.EveryStepKeepsTheInvariant := by
  intro s t hi h
  rcases step_cases s with ⟨-, hstep⟩ | ⟨i, s1, hstep, hcfg, hblk, hevt, -⟩ <;> rw [hstep] at h
  · cases h
    exact hi
  · have hi1 : s1.Inv := ⟨by rw [hcfg, hblk]; exact hi.blk, by rw [hcfg, hblk]; exact hi.events,
      by rw [hcfg, hevt]; exact hi.out⟩
    exact exec_keeps hi1 h

/-! ### The events of BYTE_IN -/

/-- BYTE_IN from a block that meets the invariant leaves legal events on the event output (60_exceptions.md R226). -/
theorem exec_byteIn_legal {s : State} (hi : s.blk.Inv s.cfg) (b : Byte) :
    ∃ t, exec (.byteIn b) s = .next t ∧ ∀ e ∈ t.evtOut, e.Legal s.cfg :=
  ⟨_, exec_byteIn b s, (byteIn_keeps hi b).2⟩

/-- The four codes no run reaches, by their numbers (30_encoding.md R80; 60_exceptions.md R226). -/
theorem ErrCode.number_unreachable_iff (c : ErrCode) : c.number.toNat ∈ [0x4, 0x5, 0x6, 0xE] ↔
    c ∈ [.frameAlreadyComplete, .noFrame, .tagAlreadyComplete, .tagHeaderInvalid] := by
  cases c <;> decide

theorem ErrCode.number_ne_zero (c : ErrCode) : c.number.toNat ≠ 0 := by cases c <;> decide

theorem ErrCode.number_capacity_iff (c : ErrCode) : c.number.toNat = 0xF ↔ c = .capacity := by cases c <;> decide

theorem Cap.number_zero_iff (c : Cap) : c.number.toNat = 0 ↔ c = .none := by cases c <;> decide

/-- Settles O47: BYTE_IN's events are legal, and each kind of legal event has the numbers of 30_encoding.md R80. -/
theorem unreachableCodesAreNeverEmitted : Obligations.UnreachableCodesAreNeverEmitted := by
  intro b s hi
  obtain ⟨t, hexec, hlegal⟩ := exec_byteIn_legal hi b
  refine ⟨t, hexec, fun e he => ?_⟩
  have hl := hlegal e he
  cases e with
  | tagFound r => exact ⟨by simp, .inl ⟨rfl, rfl, rfl, r, rfl⟩⟩
  | tagError e =>
    obtain ⟨h4, h5, h6, hE, hcap⟩ := hl
    refine ⟨?code, .inr ⟨rfl, e.code.number_ne_zero, rfl, ?cap⟩⟩
    case code =>
      rw [fields_tagError, ErrCode.number_unreachable_iff]
      simp [h4, h5, h6, hE]
    case cap =>
      rw [fields_tagError, ne_eq, Cap.number_zero_iff, ErrCode.number_capacity_iff]
      exact hcap

/-- An OTHER frame, and a frame without payload, selects no encoding (43_frame.md R154). -/
theorem selectedEnc_of_unselected {ty : FrameType} {data : List Byte} (h : ¬ (ty = .text ∧ data ≠ [])) :
    selectedEnc ty data = .none := by
  rcases data with _ | ⟨b, bs⟩
  · cases ty <;> rfl
  · cases ty with
    | other => rfl
    | text => exact absurd ⟨rfl, List.cons_ne_nil b bs⟩ h

/-- The encoding of a frame that meets its invariants is the one its first byte selects (43_frame.md R154). -/
theorem FrameRecord.Inv.enc_eq {f : FrameRecord} (h : f.Inv) : f.enc = selectedEnc f.fh.type f.data := by
  obtain ⟨-, -, hlatin1, hutf16, hnone⟩ := h
  cases henc : f.enc with
  | none => exact (selectedEnc_of_unselected (hnone.mp henc)).symm
  | latin1 =>
    obtain ⟨ht, hhead⟩ := hlatin1.mp henc
    obtain ⟨bs, hd⟩ := List.head?_eq_some_iff.mp hhead
    rw [ht, hd]
    rfl
  | utf16 =>
    obtain ⟨ht, hhead⟩ := hutf16.mp henc
    obtain ⟨bs, hd⟩ := List.head?_eq_some_iff.mp hhead
    rw [ht, hd]
    rfl

/-- Settles O48: a found tag is legal, and a COMPLETE frame that meets its invariants is whole. -/
theorem foundTagsAreWholeAndFit : Obligations.FoundTagsAreWholeAndFit := by
  intro b s hi
  obtain ⟨t, hexec, hlegal⟩ := exec_byteIn_legal hi b
  refine ⟨t, hexec, fun r hr => ?_⟩
  obtain ⟨hhdr, hframes, hcomplete, hfits⟩ := hlegal _ hr
  refine ⟨by rw [hhdr.version]; rfl, hhdr.unsync, hhdr.ext, fun f hf => ?_, hframes.unique, hfits⟩
  have hinv := hframes.inv f hf
  exact ⟨hcomplete f hf, hinv.complete.mp (hcomplete f hf), hframes.parsed f hf, hinv.enc_eq⟩

end Sys2Proof.Machine
end

section
/-! SUPPORT. The circular buffer under BYTE_IN and byte streams (00_scope.md R13; 45_scanner.md R205; 10_state.md R23,
R24). -/

namespace Sys2Proof.Machine

/-! ### One slot -/

theorem memRead_memWrite_same (s : Block) (i : Fin 10) (v : Byte) : (s.memWrite i v).memRead i = v :=
  Vector.getElem_set_self i.isLt

theorem memRead_memWrite_ne (s : Block) {i j : Fin 10} (v : Byte) (h : j ≠ i) :
    (s.memWrite i v).memRead j = s.memRead j :=
  Vector.getElem_set_ne i.isLt j.isLt fun hij => h (Fin.ext hij.symm)

/-- Settles O37: the slot lemmas, and the fields `memWrite` leaves. -/
theorem ringSlotReadAfterWrite : Obligations.RingSlotReadAfterWrite := fun s i _ v =>
  ⟨memRead_memWrite_same s i v, memRead_memWrite_ne s v, rfl, rfl, rfl, rfl, rfl⟩

/-! ### BYTE_IN -/

/-- Reading the buffer after BYTE_IN is reading it after a write of the byte at `rb_wr` (45_scanner.md R205). -/
theorem byteIn_memRead (P : Params) (s : Block) (b : Byte) (j : Fin 10) :
    (byteIn P s b).memRead j = (s.memWrite s.rbWr b).memRead j := by
  obtain ⟨hrb, -⟩ := byteIn_ring P s b
  rw [Block.memRead, hrb]
  rfl

/-- A full fill register, as the number it holds. -/
theorem fill_eq_ten_iff (n : Fin 11) : n = 10 ↔ n.val = 10 := by
  rw [Fin.ext_iff]
  rfl

/-- Settles O38: BYTE_IN ends in `commit`, and the buffer and its registers are those after the insert. -/
theorem byteInInsertsIntoTheRing : Obligations.ByteInInsertsIntoTheRing := by
  intro b s
  obtain ⟨-, hwr, hfill, hstart⟩ := byteIn_ring s.cfg s.blk b
  refine ⟨byteIn s.cfg s.blk b, exec_byteIn b s, ?_, fun j hj => ?_, ?_, ?_, ?_⟩
  · rw [byteIn_memRead, memRead_memWrite_same]
  · rw [byteIn_memRead, memRead_memWrite_ne _ _ hj]
  · rw [hwr, fin10_succ_val]
  · rw [hfill, nextFill_val]
  · rw [hstart, hfill, hwr, apply_ite Fin.val]
    simp only [fill_eq_ten_iff]
    rfl

/-! ### Byte streams -/

@[simp] theorem feedBytes_nil (P : Params) (s : Block) : feedBytes P s [] = s := rfl

@[simp] theorem feedBytes_cons (P : Params) (s : Block) (b : Byte) (bs : List Byte) :
    feedBytes P s (b :: bs) = feedBytes P (byteIn P s b) bs := rfl

/-- The buffer never holds more than ten bytes. -/
theorem lastN_held (s : Block) : lastN 10 s.held = s.held := by
  have := held_length s
  have := s.rbFill.isLt
  rw [lastN, Nat.sub_eq_zero_of_le (by omega), List.drop_zero]

/-- Settles O39: by induction on the bytes, each of which leaves the last ten of what was held and itself. -/
theorem ringHoldsTheLastTenBytes : Obligations.RingHoldsTheLastTenBytes := by
  intro P s bs hi
  induction bs generalizing s with
  | nil => exact ⟨hi, by rw [feedBytes_nil, List.append_nil, lastN_held]⟩
  | cons b bs ih =>
    obtain ⟨hi1, hheld⟩ := byteIn_ringInv (P := P) hi b
    obtain ⟨hring, hlast⟩ := ih (byteIn P s b) hi1
    refine ⟨hring, hlast.trans ?_⟩
    rw [hheld, lastN_lastN, List.append_assoc, List.singleton_append]

/-! ### Slots not yet written -/

/-- Two blocks that agree but for the events left from the last transaction and the slots no byte was written to
(10_state.md R23). -/
structure SameWritten (s u : Block) : Prop where
  ringL    : s.RingInv
  ringR    : u.RingInv
  fill     : s.rbFill = u.rbFill
  wr       : s.rbWr = u.rbWr
  openTags : s.openTags = u.openTags
  slots    : ∀ i : Fin 10, i.val < s.rbFill.val → s.memRead i = u.memRead i

theorem SameWritten.start {s u : Block} (h : SameWritten s u) : s.rbStart = u.rbStart := by
  rw [h.ringL.start, h.ringR.start, h.fill, h.wr]

/-- Blocks that agree on every slot have the same buffer. -/
theorem rb_ext {s u : Block} (h : ∀ i : Fin 10, s.memRead i = u.memRead i) : s.rb = u.rb :=
  Vector.ext fun i hi => h ⟨i, hi⟩

/-- Slots that agree below the fill agree below the next fill once the same byte is written at `rb_wr`: below ten bytes
the written slot is the one the fill grows by (45_scanner.md R205; 10_state.md R24). -/
theorem SameWritten.slots_after {s u : Block} (h : SameWritten s u) (b : Byte) (i : Fin 10)
    (hi : i.val < (nextFill s.rbFill).val) :
    (s.memWrite s.rbWr b).memRead i = (u.memWrite u.rbWr b).memRead i := by
  rw [← h.wr]
  by_cases hw : i = s.rbWr
  · rw [hw, memRead_memWrite_same, memRead_memWrite_same]
  · rw [memRead_memWrite_ne s b hw, memRead_memWrite_ne u b hw]
    refine h.slots i ?_
    have hfill := h.ringL.fill
    rw [nextFill_val] at hi
    omega

theorem block_ext {s u : Block} (hrb : s.rb = u.rb) (hwr : s.rbWr = u.rbWr) (hfill : s.rbFill = u.rbFill)
    (hstart : s.rbStart = u.rbStart) (hopen : s.openTags = u.openTags) (hevents : s.events = u.events) : s = u := by
  cases s
  cases u
  congr

/-- Short of a full window there is no scan (45_scanner.md R208). -/
theorem scanStep_of_not_full (P : Params) {s : Block} (h : s.rbFill ≠ 10) : scanStep P s = s := if_neg h

/-- With a full window the two blocks scan the same buffer; short of one neither scans (45_scanner.md R206, R208). -/
theorem SameWritten.byteIn_outputs (P : Params) {s u : Block} (h : SameWritten s u) (b : Byte) :
    (byteIn P s b).openTags = (byteIn P u b).openTags ∧ (byteIn P s b).events = (byteIn P u b).events := by
  have hfeed : (feedStep P s b).openTags = (feedStep P u b).openTags ∧
      (feedStep P s b).events = (feedStep P u b).events := by
    simp [h.openTags]
  unfold byteIn
  by_cases hfull : nextFill s.rbFill = 10
  · have hrb : (ringInsert (feedStep P s b) b).rb = (ringInsert (feedStep P u b) b).rb :=
      rb_ext fun i => h.slots_after b i (by rw [hfull]; exact i.isLt)
    have hsame : ringInsert (feedStep P s b) b = ringInsert (feedStep P u b) b :=
      block_ext hrb (by simp [h.wr]) (by simp [h.fill]) (by simp [← h.fill, hfull, h.wr]) hfeed.1 hfeed.2
    rw [hsame]
    exact ⟨rfl, rfl⟩
  · rw [scanStep_of_not_full P (by simpa using hfull), scanStep_of_not_full P (by simpa [← h.fill] using hfull)]
    exact hfeed

/-- BYTE_IN leaves two such blocks in agreement (10_state.md R23). -/
theorem SameWritten.after_byteIn (P : Params) {s u : Block} (h : SameWritten s u) (b : Byte) :
    SameWritten (byteIn P s b) (byteIn P u b) := by
  obtain ⟨-, hwrS, hfillS, -⟩ := byteIn_ring P s b
  obtain ⟨-, hwrU, hfillU, -⟩ := byteIn_ring P u b
  refine ⟨(byteIn_ringInv h.ringL b).1, (byteIn_ringInv h.ringR b).1, ?_, ?_, (h.byteIn_outputs P b).1, ?_⟩
  · rw [hfillS, hfillU, h.fill]
  · rw [hwrS, hwrU, h.wr]
  · intro i hi
    rw [byteIn_memRead, byteIn_memRead]
    exact h.slots_after b i (hfillS ▸ hi)

/-- A byte stream leaves two such blocks in agreement, with the same events (10_state.md R23). -/
theorem SameWritten.feed (P : Params) {s u : Block} (h : SameWritten s u) (bs : List Byte) :
    SameWritten (feedBytes P s bs) (feedBytes P u bs) ∧ feedEvents P s bs = feedEvents P u bs := by
  induction bs generalizing s u with
  | nil => exact ⟨h, rfl⟩
  | cons b bs ih =>
    obtain ⟨hblocks, hevents⟩ := ih (h.after_byteIn P b)
    exact ⟨hblocks, congrArg₂ (· ++ ·) (h.byteIn_outputs P b).2 hevents⟩

/-- Settles O40: the two blocks agree but for unwritten slots, a byte stream keeps that, and the status word reads no
slot. -/
theorem unwrittenSlotsAreUnobservable : Obligations.UnwrittenSlotsAreUnobservable := by
  intro P s u bs hs hu hfill hwr hopen hslots
  obtain ⟨hblocks, hevents⟩ := SameWritten.feed P ⟨hs, hu, hfill, hwr, hopen, hslots⟩ bs
  refine ⟨hevents, hblocks.openTags, ?_⟩
  rw [statusWord, statusWord, hblocks.openTags, hblocks.start, hblocks.fill]

end Sys2Proof.Machine
end

section
/-! SUPPORT. BYTE_IN: the feed of the open contexts, then the scan of the last ten bytes (45_scanner.md R201 to
R208). -/

namespace Sys2Proof.Machine

/-! ### The feed and the scan apart -/

/-- The block after the feed and the insert, on which the scan works (45_scanner.md R201). -/
def beforeScan (P : Params) (s : Block) (b : Byte) : Block := ringInsert (feedStep P s b) b

theorem byteIn_eq_scanStep (P : Params) (s : Block) (b : Byte) : byteIn P s b = scanStep P (beforeScan P s b) := rfl

@[simp] theorem beforeScan_openTags (P : Params) (s : Block) (b : Byte) :
    (beforeScan P s b).openTags = s.openTags.filterMap (survivor P b) := by
  simp [beforeScan, feedOpen_eq]

@[simp] theorem beforeScan_events (P : Params) (s : Block) (b : Byte) :
    (beforeScan P s b).events = s.openTags.reverse.filterMap (outcome P b) := by
  simp [beforeScan, feedOpen_eq]

@[simp] theorem beforeScan_rbFill (P : Params) (s : Block) (b : Byte) :
    (beforeScan P s b).rbFill = nextFill s.rbFill := rfl

/-- The feed touches no register of the buffer, so the insert leaves the last ten bytes (45_scanner.md R205). -/
theorem beforeScan_held {s : Block} (h : s.RingInv) (P : Params) (b : Byte) :
    (beforeScan P s b).held = lastN 10 (s.held ++ [b]) :=
  ringInsert_held (s := feedStep P s b) ⟨h.start, h.fill⟩ b

/-! ### The scan -/

/-- What the scan does with a header it decoded: reject it, or open a context for it (45_scanner.md R206, R207). -/
def admitHeader (P : Params) (s : Block) (h : TagHeader) : Block :=
  match tagSupportCheck h with
  | some c => s.emit (.tagError (tagErr c))
  | none =>
    if boundFull P.tagSlots s.openTags.length then s.emit (.tagError (capacityErr .tagSlots))
    else { s with openTags := s.openTags ++ [tagInit h] }

/-- The buffer is full exactly when ten bytes are held. -/
theorem held_length_eq_ten_iff (s : Block) : s.held.length = 10 ↔ s.rbFill = 10 := by
  rw [held_length, fill_eq_ten_iff]

/-- Short of ten bytes, or on ten that are no header, the scan does nothing (45_scanner.md R206, R208). -/
theorem scanStep_of_no_header (P : Params) {s : Block} (h : ¬ (s.held.length = 10 ∧ TagHeaderShape s.held 0)) :
    scanStep P s = s := by
  rcases scanStep_cases P s with ⟨hscan, -⟩ | ⟨hfull, hshape, -⟩
  · exact hscan
  · exact absurd ⟨(held_length_eq_ten_iff s).mpr hfull, (tagHeaderShape_held hfull).mp hshape⟩ h

/-- On ten bytes of a header the scan decodes and admits or rejects it (45_scanner.md R206, R207). -/
theorem scanStep_of_header (P : Params) {s : Block} (hlen : s.held.length = 10) (h : TagHeaderShape s.held 0) :
    scanStep P s = admitHeader P s (extractTagHeader s.held) := by
  have hfull := (held_length_eq_ten_iff s).mp hlen
  have hshape := (tagHeaderShape_held hfull).mpr h
  rcases scanStep_cases P s with ⟨-, hno⟩ | ⟨-, -, hd, rfl, hscan⟩
  · exact absurd ⟨hfull, hshape⟩ hno
  · rw [logicalWindow_held hfull] at hscan
    unfold admitHeader
    rcases hscan with ⟨c, hc, hscan⟩ | ⟨hc, hb, hscan⟩ | ⟨hc, hb, hscan⟩ <;> rw [hscan, hc]
    · rw [if_pos hb]
    · rw [if_neg (by simp [hb])]

/-- An admitted or rejected header adds one context or one event, and does not read the events already there. -/
theorem admitHeader_appends (P : Params) (s : Block) (h : TagHeader) :
    ∃ (opened : List TagContext) (emitted : List Event), opened.length + emitted.length ≤ 1 ∧
      ∀ evs, admitHeader P { s with events := evs } h =
        { s with openTags := s.openTags ++ opened, events := evs ++ emitted } := by
  unfold admitHeader
  cases tagSupportCheck h with
  | some c => exact ⟨[], [_], le_rfl, fun evs => by rw [List.append_nil]; rfl⟩
  | none =>
    cases hb : boundFull P.tagSlots s.openTags.length with
    | true => exact ⟨[], [_], le_rfl, fun evs => by rw [List.append_nil]; exact if_pos hb⟩
    | false => exact ⟨[tagInit h], [], le_rfl, fun evs => by rw [List.append_nil]; exact if_neg (by simp [hb])⟩

/-- The scan adds at most one context or one event to what it finds, and does not read the events already there
(45_scanner.md R206, R207, R213). -/
theorem scanStep_appends (P : Params) (s : Block) :
    ∃ (opened : List TagContext) (emitted : List Event), opened.length + emitted.length ≤ 1 ∧
      ∀ evs, scanStep P { s with events := evs } =
        { s with openTags := s.openTags ++ opened, events := evs ++ emitted } := by
  by_cases h : s.held.length = 10 ∧ TagHeaderShape s.held 0
  · obtain ⟨opened, emitted, hle, hadmit⟩ := admitHeader_appends P s (extractTagHeader s.held)
    exact ⟨opened, emitted, hle, fun evs =>
      (scanStep_of_header P (s := { s with events := evs }) h.1 h.2).trans (hadmit evs)⟩
  · refine ⟨[], [], Nat.zero_le _, fun evs => ?_⟩
    rw [List.append_nil, List.append_nil]
    exact scanStep_of_no_header P (s := { s with events := evs }) h

/-- Settles O41: the feed's survivors and outcomes, and what the scan appends to them. -/
theorem byteInFeedsNewestFirstThenScans : Obligations.ByteInFeedsNewestFirstThenScans := by
  intro b s
  obtain ⟨opened, emitted, hle, hscan⟩ := scanStep_appends s.cfg (beforeScan s.cfg s.blk b)
  have hblk : byteIn s.cfg s.blk b = _ := hscan (beforeScan s.cfg s.blk b).events
  refine ⟨_, opened, emitted, exec_byteIn b s, ?_, ?_, rfl, hle, ?_⟩
  · simp [hblk]
  · simp [hblk]
  · have hfed : (s.blk.openTags.reverse.filterMap (outcome s.cfg b)).length ≤ s.blk.openTags.length :=
      (List.length_filterMap_le ..).trans_eq List.length_reverse
    simp only [commit_evtOut, hblk, beforeScan_events, List.length_append]
    omega

/-! ### The scan decided by the last ten bytes -/

/-- Ten bytes in logical order from offset 0 are themselves. -/
theorem logicalWindow_zero {w : List Byte} (h : w.length = 10) : logicalWindow w 0 = w := by
  refine window_ext (logicalWindow_length w 0) h fun p hp => ?_
  rw [byteAt_logicalWindow w 0 p hp, Nat.add_zero, Nat.mod_eq_of_lt hp]

/-- The record extracted from ten bytes is their header (42_header_decode.md R130, R131). -/
theorem extractTagHeader_of_window {w : List Byte} (h : w.length = 10) : TagHeaderOf w 0 (extractTagHeader w) := by
  have hof := extractTagHeader_of w 0
  rwa [logicalWindow_zero h] at hof

/-- A header the support check refuses (45_scanner.md R207). -/
theorem admitHeader_of_unsupported (P : Params) (s : Block) {h : TagHeader} {c : ErrCode}
    (hc : tagSupportCheck h = some c) : admitHeader P s h = s.emit (.tagError (tagErr c)) := by
  rw [admitHeader, hc]

/-- A supported header with every slot taken (45_scanner.md R206). -/
theorem admitHeader_of_full {P : Params} {s : Block} {h : TagHeader} {n : Nat} (hc : tagSupportCheck h = none)
    (hn : P.tagSlots = .atMost n) (hfull : n ≤ s.openTags.length) :
    admitHeader P s h = s.emit (.tagError (capacityErr .tagSlots)) := by
  rw [admitHeader, hc, hn]
  exact if_pos (decide_eq_true hfull)

/-- A supported header with a slot free (45_scanner.md R206). -/
theorem admitHeader_of_free {P : Params} {s : Block} {h : TagHeader} (hc : tagSupportCheck h = none)
    (hfree : ∀ n, P.tagSlots = .atMost n → s.openTags.length < n) :
    admitHeader P s h = { s with openTags := s.openTags ++ [tagInit h] } := by
  rw [admitHeader, hc]
  exact if_neg (by simp [(boundFull_false_iff _ _).mpr hfree])

section
variable {h : TagHeader}

theorem version_supported_iff : h.version = supportedVersion ↔ h.version.toNat = 3 := byte_eq_iff _ 3 (by omega)

theorem tagSupportCheck_of_version (hv : h.version.toNat ≠ 3) :
    tagSupportCheck h = some .tagVersionUnsupported :=
  if_pos (mt version_supported_iff.mp hv)

theorem tagSupportCheck_of_unsync (hv : h.version.toNat = 3) (hu : h.unsync = true) :
    tagSupportCheck h = some .unsyncUnsupported := by
  simp [tagSupportCheck, version_supported_iff, hv, hu]

theorem tagSupportCheck_of_ext (hv : h.version.toNat = 3) (hu : h.unsync = false) (he : h.ext = true) :
    tagSupportCheck h = some .exthdrUnsupported := by
  simp [tagSupportCheck, version_supported_iff, hv, hu, he]

theorem tagSupportCheck_of_supported (hv : h.version.toNat = 3) (hu : h.unsync = false) (he : h.ext = false) :
    tagSupportCheck h = none := by
  simp [tagSupportCheck, version_supported_iff, hv, hu, he]

end

/-- Settles O42: the bytes held before the scan are the last ten, the feed's part is as before, and each clause is one
outcome of the scan on those bytes. -/
theorem headerScanOpensOrRejects : Obligations.HeaderScanOpensOrRejects := by
  intro b s w hi hw
  have hheld : (beforeScan s.cfg s.blk b).held = w := (beforeScan_held hi s.cfg b).trans hw.symm
  refine ⟨_, _, _, exec_byteIn b s, rfl, rfl, ?noHeader, fun hlen hshape => ?header⟩
  case noHeader =>
    intro hno
    have hscan := scanStep_of_no_header s.cfg (s := beforeScan s.cfg s.blk b) (by rwa [hheld])
    simp [byteIn_eq_scanStep, hscan]
  case header =>
    have hscan := scanStep_of_header s.cfg (s := beforeScan s.cfg s.blk b) (by rwa [hheld]) (by rwa [hheld])
    rw [hheld] at hscan
    refine ⟨_, extractTagHeader_of_window hlen, fun hv => ?_, fun hv hu => ?_, fun hv hu he => ?_,
      fun hv hu he => ⟨fun n hn hfull => ?_, fun hfree => ?_⟩⟩
    · simp [byteIn_eq_scanStep, hscan, admitHeader_of_unsupported s.cfg _ (tagSupportCheck_of_version hv), tagErr]
    · simp [byteIn_eq_scanStep, hscan, admitHeader_of_unsupported s.cfg _ (tagSupportCheck_of_unsync hv hu), tagErr]
    · simp [byteIn_eq_scanStep, hscan, admitHeader_of_unsupported s.cfg _ (tagSupportCheck_of_ext hv hu he), tagErr]
    · have hadmit := admitHeader_of_full (s := beforeScan s.cfg s.blk b) (tagSupportCheck_of_supported hv hu he) hn
        (by simpa using hfull)
      simp [byteIn_eq_scanStep, hscan, hadmit, capacityErr]
    · have hadmit := admitHeader_of_free (s := beforeScan s.cfg s.blk b) (tagSupportCheck_of_supported hv hu he)
        (by simpa using hfree)
      simp [byteIn_eq_scanStep, hscan, hadmit, tagInit]

/-! ### A supported header from an empty buffer -/

theorem feedBytes_append (P : Params) (s : Block) (xs ys : List Byte) :
    feedBytes P s (xs ++ ys) = feedBytes P (feedBytes P s xs) ys := List.foldl_append

theorem feedEvents_append (P : Params) (s : Block) (xs ys : List Byte) :
    feedEvents P s (xs ++ ys) = feedEvents P s xs ++ feedEvents P (feedBytes P s xs) ys := by
  induction xs generalizing s with
  | nil => rfl
  | cons x xs ih => simp only [List.cons_append, feedEvents, ih, feedBytes_cons, List.append_assoc]

/-- While nothing is open and fewer than ten bytes are held, bytes open nothing and emit nothing (45_scanner.md
R208). -/
theorem feed_of_short {P : Params} {s : Block} (hopen : s.openTags = []) (bs : List Byte)
    (hshort : s.rbFill.val + bs.length < 10) : feedEvents P s bs = [] ∧ (feedBytes P s bs).openTags = [] := by
  induction bs generalizing s with
  | nil => exact ⟨rfl, hopen⟩
  | cons b bs ih =>
    rw [List.length_cons] at hshort
    have hfill : (nextFill s.rbFill).val = s.rbFill.val + 1 := by
      rw [nextFill_val]
      omega
    have hnoscan : byteIn P s b = beforeScan P s b := by
      refine scanStep_of_not_full P ?_
      rw [ne_eq, fill_eq_ten_iff, ringInsert_rbFill, feedStep_rbFill, hfill]
      omega
    obtain ⟨hevents, hrest⟩ := ih (s := byteIn P s b) (by simp [hnoscan, hopen])
      (by rw [hnoscan, beforeScan_rbFill, hfill]; omega)
    refine ⟨?_, hrest⟩
    rw [feedEvents, hevents, hnoscan]
    simp [hopen]

/-- A clear bit above a byte's value. -/
theorem bitIs_false_of_lt {x : Byte} {i : Nat} {v : Bool} (h : BitIs x i v) (hx : x.toNat < 2 ^ i) : v = false := by
  rw [BitIs, Nat.div_eq_of_lt hx] at h
  simpa using h

/-- A legal build has a slot for a first context (00_scope.md R8). -/
theorem tagSlots_pos_of_wf {P : Params} (h : P.wf = true) {n : Nat} (hn : P.tagSlots = .atMost n) : 0 < n := by
  simp only [Params.wf, Bool.and_eq_true, hn] at h
  obtain ⟨⟨hpos, -⟩, -⟩ := h
  simpa [Bound.positive] using hpos

/-- Ten bytes are nine and a last one. -/
theorem exists_nine_and_last {w : List Byte} (h : w.length = 10) : ∃ xs x, w = xs ++ [x] ∧ xs.length = 9 := by
  rcases List.eq_nil_or_concat' w with rfl | ⟨xs, x, rfl⟩
  · simp at h
  · exact ⟨xs, x, rfl, by simpa using h⟩

/-- Settles O43: the first nine bytes leave nothing open, and on the tenth the buffer holds the header, which the scan
admits. -/
theorem supportedHeaderOpensOneContext : Obligations.SupportedHeaderOpensOneContext := by
  intro P s w hP hi hfill hopen hlen hshape hversion hflags
  obtain ⟨xs, x, rfl, hnine⟩ := exists_nine_and_last hlen
  obtain ⟨hquiet, hnone⟩ := feed_of_short (P := P) hopen xs (by rw [hfill, hnine]; decide)
  obtain ⟨hi9, hheld9⟩ := ringHoldsTheLastTenBytes P s xs hi
  have hempty : s.held = [] := List.eq_nil_of_length_eq_zero (by rw [held_length, hfill]; rfl)
  have hheld : (beforeScan P (feedBytes P s xs) x).held = xs ++ [x] := by
    rw [beforeScan_held hi9, hheld9, hempty, lastN_lastN, List.nil_append, lastN, hlen, Nat.sub_self, List.drop_zero]
  obtain ⟨hv, hunsync, hext, -⟩ := extractTagHeader_of_window hlen
  have hsupported : tagSupportCheck (extractTagHeader (xs ++ [x])) = none :=
    tagSupportCheck_of_supported (by rw [hv]; exact hversion)
      (bitIs_false_of_lt hunsync (hflags.trans (by decide))) (bitIs_false_of_lt hext hflags)
  have hscan := scanStep_of_header P (s := beforeScan P (feedBytes P s xs) x) (by rwa [hheld]) (by rwa [hheld])
  rw [hheld, admitHeader_of_free hsupported fun n hn => by simpa [hnone] using tagSlots_pos_of_wf hP hn] at hscan
  refine ⟨_, extractTagHeader_of_window hlen, ?_, ?_⟩
  · rw [feedEvents_append, hquiet]
    simp [feedEvents, byteIn_eq_scanStep, hscan, hnone]
  · rw [feedBytes_append]
    simp [byteIn_eq_scanStep, hscan, hnone, tagInit]

/-! ### A failing context -/

/-- Settles O44: the failing context is no survivor, its event stands after those of the newer contexts, and the scan
works on the same block but for that event. -/
theorem failedContextLeavesNoTrace : Obligations.FailedContextLeavesNoTrace := by
  intro P s b older newer t e _ hopen herr
  have hsurvivor : survivor P b t = none := by rw [survivor, herr]
  have houtcome : outcome P b t = some (.tagError e) := by rw [outcome, herr]
  obtain ⟨opened, emitted, -, hscan⟩ := scanStep_appends P (beforeScan P s b)
  have hwith : byteIn P s b = _ := hscan (beforeScan P s b).events
  have hsame : beforeScan P { s with openTags := older ++ newer } b =
      { beforeScan P s b with
        events := newer.reverse.filterMap (outcome P b) ++ older.reverse.filterMap (outcome P b) } := by
    refine block_ext rfl rfl rfl rfl ?_ ?_
    · simp [hopen, hsurvivor]
    · simp
  have hwithout := hscan (newer.reverse.filterMap (outcome P b) ++ older.reverse.filterMap (outcome P b))
  rw [← hsame] at hwithout
  refine ⟨older.reverse.filterMap (outcome P b) ++ emitted, ?_, ?_⟩
  · simp [hwith, hopen, houtcome]
  · rw [byteIn_eq_scanStep, hwithout, hwith, List.append_assoc]

end Sys2Proof.Machine
end

section
/-! SUPPORT. Whole bodies of a tag: padding, a partial header at the end, the tenth byte of a frame header, one frame
(44_tag.md R172 to R186). -/

namespace Sys2Proof.Machine

/-! ### Padding -/

/-- Everything a fed byte that does not raise does to a context that is open: it is counted, and only the count that
reaches the declared size completes it (44_tag.md R181, R182). -/
theorem tagFeed_ok {P : Params} {t u : TagContext} {b : Byte} (h : tagFeed P t b = .ok u) :
    u.hdr = t.hdr ∧ u.cnt = t.cnt + 1 ∧ (u.st = .complete → u.cnt = u.hdr.size.toNat) := by
  cases haction : stateAction P t b with
  | error e => rw [tagFeed_of_error haction] at h; cases h
  | ok v =>
    obtain ⟨hhdr, hcnt⟩ := stateAction_hdr_cnt haction
    rw [tagFeed_of_counted haction] at h
    rcases countByte_cases v with ⟨-, hcount⟩ | ⟨-, -, hcount⟩ | ⟨hsize, -, hcount⟩ <;> rw [hcount] at h <;> cases h
    · have hopen : v.st ≠ .complete := stateAction_open haction
      exact ⟨hhdr, congrArg (· + 1) hcnt, fun hc => absurd hc hopen⟩
    · exact ⟨hhdr, congrArg (· + 1) hcnt, fun _ => hsize⟩

/-- A context fed n zero bytes from its start, short of its declared size (44_tag.md R172, R179). -/
def zeroFed (h : TagHeader) (n : Nat) : TagContext :=
  { hdr := h, st := if n = 0 then .creatingFrameHeader else .padding, cnt := n, pend := [], frames := [] }

/-- A zero byte starts the padding or continues it (44_tag.md R172, R179). -/
theorem stateAction_zeroFed (P : Params) (h : TagHeader) (n : Nat) :
    stateAction P (zeroFed h n) 0x00 = .ok { zeroFed h n with st := .padding } := by
  by_cases hn : n = 0
  · have hst : (zeroFed h n).st = .creatingFrameHeader := if_pos hn
    rw [stateAction_of_creating hst, creatingAction_of_zero rfl rfl]
  · have hst : (zeroFed h n).st = .padding := if_neg hn
    rw [stateAction_of_padding hst, paddingAction, if_pos rfl, ← hst]

/-- A stream in its first bytes and its last one (44_tag.md R182). -/
theorem tagFeedAll_concat {P : Params} {t u : TagContext} {bs : List Byte} (h : tagFeedAll P t bs = .ok u) (b : Byte) :
    tagFeedAll P t (bs ++ [b]) = tagFeed P u b := by
  rw [tagFeedAll_append, h]
  simp only [tagFeedAll]
  cases tagFeed P u b <;> rfl

/-- Zero bytes from the start, none of which makes the count the declared size (44_tag.md R179, R181). -/
theorem tagFeedAll_zeros (P : Params) (h : TagHeader) (n : Nat) (hsize : h.size.toNat = 0 ∨ n < h.size.toNat) :
    tagFeedAll P (tagInit h) (List.replicate n 0x00) = .ok (zeroFed h n) := by
  induction n with
  | zero => rfl
  | succ n ih =>
    rw [List.replicate_succ', tagFeedAll_concat (ih (by omega))]
    exact tagFeed_of_ok (stateAction_zeroFed P h n) (by simp only [zeroFed]; omega)

/-- A byte leaves a context of size 0 open: no count is 0 (44_tag.md R184). -/
theorem tagFeed_of_size_zero {P : Params} {t u : TagContext} {b : Byte} (hsize : t.hdr.size = 0)
    (h : tagFeed P t b = .ok u) : u.hdr = t.hdr ∧ u.cnt = t.cnt + 1 ∧ u.st ≠ .complete := by
  obtain ⟨hhdr, hcnt, hcomplete⟩ := tagFeed_ok h
  refine ⟨hhdr, hcnt, fun hc => ?_⟩
  have hzero := hcomplete hc
  rw [hcnt, hhdr, hsize] at hzero
  simp at hzero

/-- Bytes leave a context of size 0 open, each of them counted (44_tag.md R184). -/
theorem tagFeedAll_of_size_zero {P : Params} {t u : TagContext} {bs : List Byte} (hsize : t.hdr.size = 0)
    (hopen : t.st ≠ .complete) (h : tagFeedAll P t bs = .ok u) : u.st ≠ .complete ∧ u.cnt = t.cnt + bs.length := by
  induction bs generalizing t with
  | nil =>
    cases h
    exact ⟨hopen, rfl⟩
  | cons b bs ih =>
    rw [tagFeedAll] at h
    cases hb : tagFeed P t b with
    | error e => rw [hb] at h; cases h
    | ok v =>
      rw [hb] at h
      obtain ⟨hhdr, hcnt, hvopen⟩ := tagFeed_of_size_zero hsize hb
      obtain ⟨huopen, hucnt⟩ := ih (hhdr ▸ hsize) hvopen h
      exact ⟨huopen, by rw [hucnt, hcnt, List.length_cons]; omega⟩

/-- Settles O33: a context of size 0 stays open on any bytes, and zero bytes leave it `zeroFed`. -/
theorem sizeZeroTagNeverCompletes : Obligations.SizeZeroTagNeverCompletes :=
  ⟨fun _ _ _ _ hsize hopen hfed => tagFeedAll_of_size_zero hsize hopen hfed,
    fun P h n hsize => tagFeedAll_zeros P h (n + 1) (.inl (by rw [hsize]; rfl))⟩

/-- Settles O34: every zero byte but the last leaves the context `zeroFed`, and the last completes it. -/
theorem allPaddingTagCompletesOnItsLastByte : Obligations.AllPaddingTagCompletesOnItsLastByte := by
  intro P h hpos
  refine ⟨?_, fun k hk => ⟨_, tagFeedAll_zeros P h k (.inr hk), ?_, rfl⟩⟩
  · obtain ⟨n, hn⟩ := Nat.exists_eq_succ_of_ne_zero hpos.ne'
    rw [hn, List.replicate_succ', tagFeedAll_concat (tagFeedAll_zeros P h n (.inr (by omega))),
      tagFeed_of_counted (stateAction_zeroFed P h n)]
    exact countByte_of_no_frame hn.symm rfl
  · simp only [zeroFed]
    split <;> simp

/-! ### A partial header at the end -/

/-- The byte that makes the count the declared size completes a tag whose frames are all COMPLETE (44_tag.md R181). -/
theorem countByte_of_whole_frames {t : TagContext} (hn : t.cnt + 1 = t.hdr.size.toNat)
    (hframes : ∀ f ∈ t.frames, f.st = .complete) : countByte t = .ok { t with cnt := t.cnt + 1, st := .complete } := by
  rcases countByte_cases t with ⟨hne, -⟩ | ⟨-, ⟨fs, f, hf, hopen⟩, -⟩ | ⟨-, -, hcount⟩
  · exact absurd hn hne
  · exact absurd (hframes f (by simp [hf])) hopen
  · exact hcount

/-- Settles O35: the byte is buffered, and the counter completes the tag with the frames it had. -/
theorem partialHeaderIsDroppedAtCompletion : Obligations.PartialHeaderIsDroppedAtCompletion := by
  intro P t b hst hpend hstay hframes hn
  have haction : stateAction P t b = .ok { t with pend := t.pend ++ [b] } := by
    rw [stateAction_of_creating hst, creatingAction_of_buffered hstay (by omega)]
  rw [tagFeed_of_counted haction]
  exact ⟨_, countByte_of_whole_frames hn hframes, rfl, rfl, rfl⟩

/-! ### The tenth byte of a frame header -/

section
variable {P : Params} {t : TagContext} {b : Byte} {w : List Byte} {fh : FrameHeader}

/-- The tenth byte makes a complete frame header of the pending bytes (44_tag.md R173, R174). -/
theorem stateAction_of_tenth (hst : t.st = .creatingFrameHeader) (hp : t.pend.length = 9) :
    stateAction P t b = headerComplete P { t with pend := t.pend ++ [b] } (t.pend ++ [b]) := by
  have hstay : ¬ (t.pend.length = 0 ∧ b = 0x00) := by omega
  have hten : (t.pend ++ [b]).length = hdrLen := by rw [List.length_append, hp]; rfl
  rw [stateAction_of_creating hst, creatingAction, if_neg hstay]
  exact if_pos hten

/-- An illegal header raises FRAME_HEADER_INVALID (44_tag.md R174). -/
theorem headerComplete_of_invalid (h : ¬ FrameHeaderShape w) :
    headerComplete P t w = .error (tagErr .frameHeaderInvalid) := by
  rcases frameHeaderDecode_cases P.flagMap w with ⟨-, hdecode⟩ | ⟨-, hshape, -⟩
  · rw [headerComplete, hdecode]
  · exact absurd hshape h

/-- A decoded header the support check refuses (44_tag.md R175). -/
theorem headerComplete_of_unsupported {e : TagError} (hd : frameHeaderDecode P.flagMap w = .ok fh)
    (hs : frameSupportCheck t fh = some e) : headerComplete P t w = .error e := by
  simp only [headerComplete, hd, hs]

/-- A supported header the capacity check refuses (44_tag.md R176). -/
theorem headerComplete_of_no_capacity {e : TagError} (hd : frameHeaderDecode P.flagMap w = .ok fh)
    (hs : frameSupportCheck t fh = none) (hk : capacityCheck P t fh = some e) : headerComplete P t w = .error e := by
  simp only [headerComplete, hd, hs, hk]

/-- A header both checks pass appends its frame (44_tag.md R177). -/
theorem headerComplete_of_admitted (hd : frameHeaderDecode P.flagMap w = .ok fh)
    (hs : frameSupportCheck t fh = none) (hk : capacityCheck P t fh = none) :
    headerComplete P t w = .ok (appendFrame t fh) := by
  simp only [headerComplete, hd, hs, hk]

theorem frameSupportCheck_of_known (h : ∃ g ∈ t.frames, g.fh.id = fh.id) :
    frameSupportCheck t fh = some (tagErr .duplicateFrameId) := by
  rw [frameSupportCheck, if_pos (by simpa using h)]

theorem frameSupportCheck_of_new (h : ∀ g ∈ t.frames, g.fh.id ≠ fh.id) : frameSupportCheck t fh =
    if fh.type = .text ∧ fh.comp then some (tagErr .textCompressionUnsupported)
    else if fh.type = .text ∧ fh.encr then some (tagErr .textEncryptionUnsupported)
    else none := by
  rw [frameSupportCheck, if_neg (by simpa using h)]

/-- A full FRAME_SLOTS is reported before DATA_BYTES (44_tag.md R176). -/
theorem capacityCheck_of_slots_full {n : Nat} (hn : P.frameSlots = .atMost n) (h : n ≤ t.frames.length) :
    capacityCheck P t fh = some (capacityErr .frameSlots) := by
  simp [capacityCheck, boundFull, hn, h]

theorem capacityCheck_of_bytes_exceeded {n : Nat} (hslots : ∀ k, P.frameSlots = .atMost k → t.frames.length < k)
    (hn : P.dataBytes = .atMost n) (h : n < declaredBytes t.frames + fh.size.toNat) :
    capacityCheck P t fh = some (capacityErr .dataBytes) := by
  simp [capacityCheck, (boundFull_false_iff _ _).mpr hslots, boundExceeded, hn, h]

end

/-- The context with a new frame, by the frame's size as a number (44_tag.md R177; 43_frame.md R150). -/
theorem appendFrame_eq {t : TagContext} (fh : FrameHeader) (hst : t.st = .creatingFrameHeader) : appendFrame t fh =
    { t with
      frames := t.frames ++ [{ fh := fh, data := [], st := if fh.size.toNat = 0 then .complete else .addingData,
                               inSrc := true, enc := .none }],
      pend := [],
      st := if 0 < fh.size.toNat then .addingFrameBytes else .creatingFrameHeader } := by
  have hsize : fh.size = 0 ↔ fh.size.toNat = 0 := BitVec.toNat_inj.symm
  simp only [appendFrame, frameInit, hsize, hst]
  by_cases h0 : fh.size.toNat = 0
  · simp only [if_pos h0, if_neg (show ¬ 0 < fh.size.toNat by omega)]
  · simp only [if_neg h0, if_pos (show 0 < fh.size.toNat by omega)]

/-- Settles O30: the tenth byte makes a complete header, and each clause is the first check that refuses it, or the
append. -/
theorem tenthHeaderByteBuildsAFrame : Obligations.TenthHeaderByteBuildsAFrame := by
  rintro P t b w hst hp rfl
  rw [stateAction_of_tenth hst hp]
  refine ⟨headerComplete_of_invalid, fun hshape => ?_⟩
  have hten : (t.pend ++ [b]).length = 10 := by rw [List.length_append, hp]; rfl
  have hdecode := frameHeaderDecode_of_shape (m := P.flagMap) hten hshape
  refine ⟨_, hdecode, extractFrameHeader_fields .., extractFrameHeader_flags .., fun hknown => ?known, fun hnew => ?_⟩
  case known => exact headerComplete_of_unsupported hdecode (frameSupportCheck_of_known hknown)
  generalize extractFrameHeader P.flagMap (t.pend ++ [b]) = fh at hdecode hnew ⊢
  have hsupport := frameSupportCheck_of_new (t := { t with pend := t.pend ++ [b] }) hnew
  refine ⟨fun hcomp => ?compressed, fun ⟨htext, hplain, hencr⟩ => ?encrypted, fun hplain => ?_⟩
  case compressed => exact headerComplete_of_unsupported hdecode (hsupport.trans (if_pos hcomp))
  case encrypted =>
    refine headerComplete_of_unsupported hdecode (hsupport.trans ?_)
    rw [if_neg (by simp [hplain]), if_pos ⟨htext, hencr⟩]
    rfl
  have hpass : frameSupportCheck { t with pend := t.pend ++ [b] } fh = none := by
    rw [hsupport, if_neg (by tauto), if_neg (by tauto)]
  refine ⟨fun n hn hfull => ?slots, fun hslots => ⟨fun n hn hexceeded => ?bytes, fun hbytes => ?append⟩⟩
  case slots => exact headerComplete_of_no_capacity hdecode hpass (capacityCheck_of_slots_full hn hfull)
  case bytes =>
    exact headerComplete_of_no_capacity hdecode hpass (capacityCheck_of_bytes_exceeded hslots hn hexceeded)
  case append =>
    have hcapacity := (capacityCheck_none_iff P { t with pend := t.pend ++ [b] } fh).mpr ⟨hslots, hbytes⟩
    rw [headerComplete_of_admitted hdecode hpass hcapacity, appendFrame_eq fh (by exact hst)]

/-! ### A tag filled by one frame -/

/-- A tag whose first frame header is part of the way through (44_tag.md R173). -/
def headerPart (h : TagHeader) (xs : List Byte) : TagContext :=
  { hdr := h, st := .creatingFrameHeader, cnt := xs.length, pend := xs, frames := [] }

/-- Bytes from the start of a tag, short of the tenth and of the declared size, are buffered unless they begin the
padding (44_tag.md R172, R173, R181). -/
theorem tagFeedAll_headerPart (P : Params) {h : TagHeader} (xs : List Byte) (hfirst : xs.head? ≠ some 0x00)
    (hlen : xs.length ≤ 9) (hsize : xs.length < h.size.toNat) :
    tagFeedAll P (tagInit h) xs = .ok (headerPart h xs) := by
  induction xs using List.reverseRecOn with
  | nil => rfl
  | append_singleton pre x ih =>
    rw [List.length_append, List.length_singleton] at hlen hsize
    have hpre : pre.head? ≠ some 0x00 := fun h0 => hfirst (by rw [List.head?_append, h0]; rfl)
    have hstay : ¬ (pre = [] ∧ x = 0x00) := by
      rintro ⟨rfl, rfl⟩
      exact hfirst rfl
    have haction : stateAction P (headerPart h pre) x = .ok { headerPart h pre with pend := pre ++ [x] } := by
      rw [stateAction_of_creating rfl, creatingAction_of_buffered hstay (by simp only [headerPart]; omega)]
      rfl
    rw [tagFeedAll_concat (ih hpre (by omega) (by omega)), tagFeed_of_ok haction (by simp only [headerPart]; omega)]
    simp [headerPart]

theorem PayloadAccepted.init {ty : FrameType} {pre : List Byte} {x : Byte} (h : PayloadAccepted ty (pre ++ [x])) :
    PayloadAccepted ty pre := by
  simpa using h.take pre.length

theorem PayloadAccepted.selector {ty : FrameType} {pre : List Byte} {x : Byte}
    (h : PayloadAccepted ty (pre ++ [x])) (ht : ty = .text) (hp : pre = []) : x = 0x00 ∨ x = 0x01 := by
  subst hp
  exact h ht x rfl

/-- A tag whose one frame is part of the way through its payload (44_tag.md R177, R178). -/
def fillingTag (h : TagHeader) (fh : FrameHeader) (data : List Byte) : TagContext :=
  { hdr := h, st := .addingFrameBytes, cnt := 10 + data.length, pend := [], frames := [partway fh true data] }

/-- A tag filled by its one frame (44_tag.md R183). -/
def filledTag (h : TagHeader) (fh : FrameHeader) (data : List Byte) : TagContext :=
  { hdr := h, st := .complete, cnt := 10 + data.length, pend := [], frames := [partway fh true data] }

section
variable {P : Params} {h : TagHeader} {fh : FrameHeader} {pre : List Byte} {x : Byte}

/-- The one frame takes the byte, and the tag goes back to frame headers when that fills the frame (44_tag.md R178). -/
theorem stateAction_fillingTag (hl : pre.length < fh.size.toNat) (ha : PayloadAccepted fh.type (pre ++ [x])) :
    stateAction P (fillingTag h fh pre) x = .ok { fillingTag h fh pre with
      frames := [partway fh true (pre ++ [x])],
      st := if (partway fh true (pre ++ [x])).st = .complete then .creatingFrameHeader else .addingFrameBytes } := by
  rw [stateAction_of_adding rfl, addingAction_of_concat (fs := []) rfl,
    frameAddByte_partway fh true pre x hl ha.selector]
  rfl

/-- A byte that does not fill the frame (43_frame.md R153; 44_tag.md R181). -/
theorem tagFeed_fillingTag (hl : pre.length + 1 < fh.size.toNat) (ha : PayloadAccepted fh.type (pre ++ [x]))
    (hsize : h.size.toNat = 10 + fh.size.toNat) :
    tagFeed P (fillingTag h fh pre) x = .ok (fillingTag h fh (pre ++ [x])) := by
  have hopen : (partway fh true (pre ++ [x])).st ≠ .complete := by
    rw [partway_st_of_lt true (by simpa using hl)]
    simp
  have haction := stateAction_fillingTag (P := P) (h := h) (by omega) ha
  rw [if_neg hopen] at haction
  rw [tagFeed_of_ok haction (by simp only [fillingTag]; omega)]
  simp [fillingTag, Nat.add_assoc]

/-- The byte that fills the frame and with it the tag (43_frame.md R153; 44_tag.md R181, R183). -/
theorem tagFeed_fillingTag_last (hl : pre.length + 1 = fh.size.toNat) (ha : PayloadAccepted fh.type (pre ++ [x]))
    (hsize : h.size.toNat = 10 + fh.size.toNat) :
    tagFeed P (fillingTag h fh pre) x = .ok (filledTag h fh (pre ++ [x])) := by
  have hfull : (partway fh true (pre ++ [x])).st = .complete := by
    rw [partway_of_full true (by simpa using hl)]
  have haction := stateAction_fillingTag (P := P) (h := h) (by omega) ha
  rw [tagFeed_of_last (fs := []) haction (by simp only [fillingTag]; omega) rfl hfull]
  simp [fillingTag, filledTag, Nat.add_assoc]

/-- A part of the payload (44_tag.md R178). -/
theorem tagFeedAll_fillingTag (P : Params) (data : List Byte) (hl : data.length < fh.size.toNat)
    (ha : PayloadAccepted fh.type data) (hsize : h.size.toNat = 10 + fh.size.toNat) :
    tagFeedAll P (fillingTag h fh []) data = .ok (fillingTag h fh data) := by
  induction data using List.reverseRecOn with
  | nil => rfl
  | append_singleton pre x ih =>
    rw [List.length_append, List.length_singleton] at hl
    rw [tagFeedAll_concat (ih (by omega) ha.init), tagFeed_fillingTag hl ha hsize]

end

/-- An identifier byte is not 0x00, so a frame header never starts the padding (41_header_validators.md R117;
44_tag.md R172). -/
theorem IdCode.ne_zero {x : Byte} (h : IdCode x) : x ≠ 0x00 := by
  rintro rfl
  revert h
  unfold IdCode
  decide

/-- The first nine bytes of a frame header are buffered where the tag has room for the tenth (44_tag.md R173). -/
theorem tagFeedAll_nine (P : Params) {h : TagHeader} {xs : List Byte} {x : Byte} (hnine : xs.length = 9)
    (hshape : FrameHeaderShape (xs ++ [x])) (hsize : 10 ≤ h.size.toNat) :
    tagFeedAll P (tagInit h) xs = .ok (headerPart h xs) := by
  refine tagFeedAll_headerPart P xs (fun h0 => ?_) hnine.le (by omega)
  obtain ⟨ys, rfl⟩ := List.head?_eq_some_iff.mp h0
  exact hshape.1.ne_zero rfl

/-- A tag whose first frame has just been appended, before the tenth byte of its header is counted (44_tag.md R177). -/
def firstFrame (h : TagHeader) (fh : FrameHeader) : TagContext :=
  { hdr := h, st := if fh.size = 0 then .creatingFrameHeader else .addingFrameBytes, cnt := 9, pend := [],
    frames := [partway fh true []] }

section
variable {P : Params} {h : TagHeader} {xs : List Byte} {x : Byte} {fh : FrameHeader}

/-- The tenth byte of a tag's first frame header, both checks passing, appends its frame (44_tag.md R174 to R177). -/
theorem stateAction_headerPart (hnine : xs.length = 9) (hdecode : frameHeaderDecode P.flagMap (xs ++ [x]) = .ok fh)
    (hplain : fh.type = .text → fh.comp = false ∧ fh.encr = false)
    (hslots : ∀ n, P.frameSlots = .atMost n → 1 ≤ n) (hbytes : ∀ n, P.dataBytes = .atMost n → fh.size.toNat ≤ n) :
    stateAction P (headerPart h xs) x = .ok (firstFrame h fh) := by
  have hsupport : frameSupportCheck { headerPart h xs with pend := xs ++ [x] } fh = none :=
    (frameSupportCheck_none_iff _ fh).mpr ⟨by simp [headerPart], hplain⟩
  have hcapacity : capacityCheck P { headerPart h xs with pend := xs ++ [x] } fh = none :=
    (capacityCheck_none_iff P _ fh).mpr ⟨hslots, fun n hn => by simpa [headerPart, declaredBytes] using hbytes n hn⟩
  rw [stateAction_of_tenth rfl hnine]
  refine (headerComplete_of_admitted hdecode hsupport hcapacity).trans ?_
  rw [firstFrame, ← frameInit_partway, ← hnine]
  rfl

/-- A frame of size 0 fills a tag of ten bytes with its header alone (44_tag.md R177, R181, R183). -/
theorem countByte_firstFrame_of_empty (hempty : fh.size.toNat = 0) (hsize : h.size.toNat = 10) :
    countByte (firstFrame h fh) = .ok (filledTag h fh []) := by
  refine countByte_of_whole_frames hsize.symm fun f hf => ?_
  rw [List.mem_singleton.mp hf]
  exact if_pos hempty.symm

/-- A frame of a positive size is to be filled after its header (44_tag.md R177). -/
theorem countByte_firstFrame_of_payload (hpos : 0 < fh.size.toNat) (hsize : h.size.toNat = 10 + fh.size.toNat) :
    countByte (firstFrame h fh) = .ok (fillingTag h fh []) := by
  have hne : fh.size ≠ 0 := fun h0 => by simp [h0] at hpos
  rcases countByte_cases (firstFrame h fh) with ⟨-, hcount⟩ | ⟨hlast, -⟩ | ⟨hlast, -⟩
  · rw [hcount, firstFrame, if_neg hne]
    rfl
  all_goals
    simp only [firstFrame] at hlast
    omega

end

/-- Settles O36: the header appends the frame, the payload fills it, and its last byte, or the header's where the
payload is empty, completes the tag. -/
theorem oneFrameTagDeliversItsPayload : Obligations.OneFrameTagDeliversItsPayload := by
  intro P h w hlen hshape
  obtain ⟨xs, x, rfl, hnine⟩ := exists_nine_and_last hlen
  have hdecode := frameHeaderDecode_of_shape (m := P.flagMap) hlen hshape
  refine ⟨_, extractFrameHeader_fields .., extractFrameHeader_flags .., ?_⟩
  generalize extractFrameHeader P.flagMap (xs ++ [x]) = fh at hdecode
  intro hplain data hdata hsize ha hslots hbytes
  rw [← partway_of_full true hdata, hsize]
  change tagFeedAll P (tagInit h) (xs ++ [x] ++ data) = .ok (filledTag h fh data)
  have hbody : h.size.toNat = 10 + fh.size.toNat := hsize.trans (congrArg _ hdata)
  have hheader := tagFeedAll_nine P hnine hshape (h := h) (by omega)
  have haction := stateAction_headerPart (h := h) hnine hdecode
    (fun ht => by simpa [ht] using hplain) hslots (hdata ▸ hbytes)
  rcases List.eq_nil_or_concat' data with rfl | ⟨pre, y, rfl⟩
  · rw [List.append_nil, tagFeedAll_concat hheader, tagFeed_of_counted haction]
    exact countByte_firstFrame_of_empty hdata.symm hsize
  · rw [List.length_append, List.length_singleton] at hdata
    have hpart := tagFeedAll_fillingTag P pre (by omega) ha.init hbody
    rw [tagFeedAll_append, tagFeedAll_concat hheader, tagFeed_of_counted haction,
      countByte_firstFrame_of_payload (by omega) hbody]
    exact (tagFeedAll_concat hpart y).trans (tagFeed_fillingTag_last hdata ha hbody)

end Sys2Proof.Machine
end
